-- ==== Sys2Proof/Word.lean ====
section
/-! DEFINITION. The Word and the byte (40_word.md R100, 20_memory.md R50). The six primitives of the Word unit
stand in Machine/WordUnit.lean. -/

namespace Sys2Proof

/-- R100: a Word is an opaque 32-bit unsigned value. -/
abbrev Word := BitVec 32

/-- One byte of the stream or of `BUF` (R50). -/
abbrev Byte := BitVec 8

end Sys2Proof
end

