-- ==== Sys2Proof/Config.lean ====
section
/-! DEFINITION. What is fixed for this hardware (00_scope.md R6) and the free values. R6 leaves no parameter open, so
the only members without a body are the free values: what the spec calls unspecified. Nothing in Lean can evaluate
them, so whatever is proved holds for every value of them. -/

namespace Sys2Proof.Config

/-- R6, R50: bytes of the block buffer `BUF`. -/
abbrev bufBytes : Nat := 64

/-- R6, R50: words of the message schedule `W`. -/
abbrev scheduleWords : Nat := 80

/-- R222 (V2): word `i` of the data registers after the reset step taken at time `n` (log 5). Index 0 to 4 is
`H`, 5 to 9 is `A..E`, 10 + i is `W[i]`. -/
opaque freeWord : Nat → Nat → Word

/-- R222 (V2): byte `i` of `BUF` after the reset step taken at time `n` (log 5). -/
opaque freeByte : Nat → Nat → Byte

/-- R177 (V3): what the `digest` port shows in `IDLE` and `FAULT` at time `n` (log 6). -/
opaque freeDigest : Nat → BitVec 160

/-- R177 (V3): what the `hex` port shows in `IDLE` and `FAULT` at time `n` (log 6). -/
opaque freeHex : Nat → BitVec 320

/-- R180 (V5): what `blk_data` shows at time `n` while `blk_valid = 0` (log 6). -/
opaque freeBlkData : Nat → BitVec 512

end Sys2Proof.Config
end

