-- ==== Sys2Proof/Syntax.lean ====
section
/-! DEFINITION. The instructions of the opcode table (one constructor of `Instr` per row, 43 rows) and the small
enumerations of the control formats (30_encoding.md). -/

namespace Sys2Proof

/-- R29, R83: the phases of the sequencer, and the six reserved codes 0x9 to 0xE (never written, R88(c); log 12). -/
inductive Phase where
  | idle | req | fill | load | expand | initv | round | acc | done | fault
  | rsv9 | rsvA | rsvB | rsvC | rsvD | rsvE
deriving DecidableEq, Repr

/-- R31, R84: the fault causes. -/
inductive Cause where
  | none | srcError | lenOverflow | invariant
deriving DecidableEq, Repr

/-- R70: the control formats an instruction is written in. `fmt` is the format of `FMT.HEX`, which has no bits. -/
inductive Format where
  | cmd | beat | uop | prim | fmt
deriving DecidableEq, Repr

/-- Why the decoder refuses a word. -/
inductive Reject where
  /-- the number does not fit the format's width -/
  | width
  /-- a bit that the format leaves unused is set (PRIM's filler bits, NOT32's second operand; log 10) -/
  | unusedBits
  /-- R102, V13: ROTL32 by 32 or more has no meaning -/
  | rotAmount
deriving DecidableEq, Repr

/-- R86: the fields of the dispatch word DW. -/
structure Dw where
  ph : Phase
  exh : Bool
  owed : Bool
  full : Bool
  hi : Bool
  bk : BitVec 2
  bv : Bool
  q : BitVec 2
  tov : Bool
  cntmax : Bool
  tlo : Bool
deriving DecidableEq, Repr

/-- The instructions, one constructor per row of the opcode table, in the table's order. -/
inductive Instr where
  /-- R170 -/
  | cmdNop
  /-- R171 -/
  | cmdStart
  /-- R172: `cmd = 1‖lo` -/
  | cmdReserved (lo : Bool)
  /-- R82: kind 00 -/
  | beatData (b : Byte)
  /-- R82: kind 01, the data bits are ignored -/
  | beatEos (ignored : Byte)
  /-- R82: kind 10, the data bits are ignored -/
  | beatErr (ignored : Byte)
  /-- R88(b): kind 11, treated as ERR -/
  | beatReserved (ignored : Byte)
  /-- R179 -/
  | seqHoldIdle
  /-- R111 -/
  | padNextExh
  /-- R112 -/
  | padNextOwed
  /-- R113 -/
  | padNextRead
  /-- R115 -/
  | padFull
  /-- R119 -/
  | padWait
  /-- R114 -/
  | padData
  /-- R125 -/
  | padDataOvf
  /-- R116 -/
  | padEosFit
  /-- R117 -/
  | padEosSpill
  /-- R118 -/
  | padErr
  /-- R141 -/
  | ceLoad
  /-- R142 -/
  | ceExpand
  /-- R153: `PH = EXPAND`, `T >= 80` -/
  | seqInvExpandHigh
  /-- R153: `PH = EXPAND`, `T < 16` -/
  | seqInvExpandLow
  /-- R143 -/
  | ceInitv
  /-- R146 -/
  | ceRoundF0
  /-- R147 -/
  | ceRoundF1
  /-- R148 -/
  | ceRoundF2
  /-- R149 -/
  | ceRoundF3
  /-- R153: `PH = ROUND`, `T >= 80` -/
  | seqInvRoundHigh
  /-- R151 -/
  | ceAcc
  /-- R179 -/
  | seqHoldDone
  /-- R153: reserved phase code 9 -/
  | seqInvPh9
  /-- R153: reserved phase codes A, B -/
  | seqInvPhAB
  /-- R153: reserved phase codes C, D -/
  | seqInvPhCD
  /-- R153: reserved phase code E -/
  | seqInvPhE
  /-- R179 -/
  | seqHoldFault
  /-- R101 -/
  | add32 (a b : Word)
  /-- R102: the amount is an operand word; 32 or more is ill formed (V13) -/
  | rotl32 (a n : Word)
  /-- R103 -/
  | and32 (a b : Word)
  /-- R104 -/
  | or32 (a b : Word)
  /-- R105 -/
  | xor32 (a b : Word)
  /-- R106 -/
  | not32 (a : Word)
  /-- R88(e): function select `11‖lo`, never issued -/
  | primReserved (lo : Bool)
  /-- R176 -/
  | fmtHex
deriving DecidableEq, Repr

end Sys2Proof
end

