-- ==== Sys2Proof/Machine/State.lean ====
section
/-! DEFINITION. The state (10_state.md): the fifteen elements of R20, the input ports of 00_scope.md R9 with what the
host and the byte source will present there, the per-step output ports, and the model's own fields. Plain data. -/

namespace Sys2Proof.Machine

/-- R20, R21: the Digest State `H[0..4]`. -/
structure Digest where
  h0 : Word
  h1 : Word
  h2 : Word
  h3 : Word
  h4 : Word
deriving DecidableEq, Repr

/-- R20, R22: the working variables `A..E`. -/
structure Work where
  a : Word
  b : Word
  c : Word
  d : Word
  e : Word
deriving DecidableEq, Repr

/-- R50: the byte memory `BUF`, cells in strictly rising address order, none equal to what an unlisted cell reads as
(log 17). -/
abbrev Memory := List Host.Cell

/-- 70_reset R223, R226, R233: what the host does to the two offer lanes at a reset it takes. `none` leaves the
pending offer and the lane as they are; `some l` withdraws the pending offer and goes on with `l` (log 2). -/
structure ResetReq where
  cmd : Option (List (Option (BitVec 2)))
  src : Option (List (Option (BitVec 10)))
deriving DecidableEq, Repr

/-- The input ports of 00_scope R9 and what will be presented at them (log 2). A lane's entry `none` is a step in
which nothing new is offered. -/
structure Inputs where
  /-- port `rst` in the coming step -/
  rst : Option ResetReq
  rstLane : List (Option ResetReq)
  /-- ports `cmd_valid`, `cmd` -/
  cmdValid : Bool
  cmd : BitVec 2
  cmdLane : List (Option (BitVec 2))
  /-- ports `src_valid`, `src_kind`, `src_data` -/
  srcValid : Bool
  srcKind : BitVec 2
  srcData : Byte
  srcLane : List (Option (BitVec 10))
deriving DecidableEq, Repr

/-- The per-step output ports of 00_scope R9, as the last step drove them, and the model's record of a combinational
unit that was run on its own (log 8, log 23). -/
structure Outputs where
  /-- port `cmd_accept` -/
  cmdAccept : Bool
  /-- port `src_accept` -/
  srcAccept : Bool
  /-- ports `blk_valid`, `blk_data` (R180): the block emitted in the last step -/
  blk : Option (BitVec 512)
  /-- the result of a Word primitive run on its own -/
  word : Option Word
  /-- the string `FMT.HEX` showed when run on its own -/
  hex : Option (BitVec 320)
deriving DecidableEq, Repr

/-- A combinational unit to be run on its own by the next step (log 8). -/
inductive Probe where
  | prim (w : BitVec 72)
  | hex
deriving DecidableEq, Repr

structure State where
  /-- R29 -/
  ph : Phase
  /-- R31 -/
  cause : Cause
  /-- R26 -/
  count : BitVec 61
  /-- R25 -/
  fill : BitVec 7
  /-- R27 -/
  owed : Bool
  /-- R28 -/
  exh : Bool
  /-- R30 -/
  t : BitVec 7
  /-- R21 -/
  h : Digest
  /-- R22 -/
  v : Work
  /-- R23 -/
  w : Vector Word 80
  /-- R24 -/
  buf : Memory
  /-- 00_scope R9: the input side -/
  inp : Inputs
  /-- 00_scope R9: the per-step outputs -/
  out : Outputs
  /-- the model's own, log 8 -/
  probe : Option Probe
  /-- the model's own, log 7: advanced by every step; the free values are applied to it -/
  freeCtr : Nat
deriving DecidableEq, Repr

/-- What stops the machine. A fault OF THE HARDWARE (R190) is a next state with `PH = FAULT`, not one of these. -/
inductive Fault where
  /-- A byte of `BUF` outside 0..63 (R50, R53: such an index is never used). Raised by PAD.DATA, PAD.EOS.FIT and
  PAD.EOS.SPILL when `FILL >= 64`, which no legal state that selects them has. Safe: the machine stops (log 13). -/
  | bufRange
deriving DecidableEq, Repr

/-- What has no meaning. -/
inductive Refusal where
  /-- An instruction of the table without a meaning here; none is left. -/
  | notModelled (mnemonic : String)
  /-- R88(e), V12: PRIM 110 and 111, "no behaviour is defined". Raised by PRIM.RESERVED. Safe (log 9). -/
  | reservedPrim
  /-- R102, V13: ROTL32 by 32 or more is given no meaning. Raised by ROTL32. Safe (log 9). -/
  | rotAmount
  /-- A PRIM word that the decoder rejects, with its reason. Raised by the step. Safe (log 10). -/
  | badEncoding (why : Reject)
deriving DecidableEq, Repr

/-- Nothing offered, nothing to come (log 19). -/
def Inputs.silent : Inputs where
  rst := none
  rstLane := []
  cmdValid := false
  cmd := 0
  cmdLane := []
  srcValid := false
  srcKind := 0
  srcData := 0
  srcLane := []

/-- No accept, no block, no unit run on its own (log 23). -/
def Outputs.quiet : Outputs where
  cmdAccept := false
  srcAccept := false
  blk := none
  word := none
  hex := none

/-- R36, R221: the state after reset. `PH`, `CAUSE`, `COUNT`, `FILL`, `OWED`, `EXH`, `T` as R36 gives them; `H`, `A..E`,
`W`, `BUF` are unspecified there and hold the values of log 4 (DESIGN CHOICE, unsafe). -/
def State.reset : State where
  ph := .idle
  cause := .none
  count := 0
  fill := 0
  owed := false
  exh := false
  t := 0
  h := { h0 := 0, h1 := 0, h2 := 0, h3 := 0, h4 := 0 }
  v := { a := 0, b := 0, c := 0, d := 0, e := 0 }
  w := Vector.replicate 80 0
  buf := []
  inp := Inputs.silent
  out := Outputs.quiet
  probe := none
  freeCtr := 0

end Sys2Proof.Machine
end

