-- ==== Sys2Proof/Machine/Ops.lean ====
section
/-! DEFINITION. The named operations over `BUF` (20_memory.md), taking a fault (60_exceptions.md R197) with reset, the
only way out of it (70_reset_and_hazards.md R220), and the outputs of a step. -/

namespace Sys2Proof.Machine

/-! ## The byte memory BUF -/

/-- What a cell that is not listed reads as: 0x00, so that the clear of R112 and R113 is the empty list (log 4, log 17). -/
def Memory.unlisted : Byte := 0x00

/-- One byte of `BUF` (R50). -/
def Memory.read : Memory → Nat → Byte
  | [], _ => Memory.unlisted
  | (k, x) :: m, a => if a = k then x else Memory.read m a

/-- Put a cell in front unless it holds what an unlisted cell reads as. -/
def Memory.cons (a : Nat) (x : Byte) (m : Memory) : Memory :=
  if x = Memory.unlisted then m else (a, x) :: m

/-- One byte of `BUF` written, in canonical form. -/
def Memory.write : Memory → Nat → Byte → Memory
  | [], a, x => Memory.cons a x []
  | (k, y) :: m, a, x =>
    if a < k then Memory.cons a x ((k, y) :: m)
    else if a = k then Memory.cons a x m
    else (k, y) :: Memory.write m a x

/-- The canonical form from address `lo` on: strictly rising addresses inside `BUF`, no cell equal to an unlisted one. -/
def Memory.wfFrom (lo : Nat) : Memory → Bool
  | [] => true
  | (k, x) :: m =>
    decide (lo ≤ k) && decide (k < Config.bufBytes) && decide (x ≠ Memory.unlisted) && Memory.wfFrom (k + 1) m

/-- The canonical form of `BUF` (R50: addresses 0 to 63). -/
def Memory.wf (m : Memory) : Bool := Memory.wfFrom 0 m

/-- R112, R113: all 64 bytes 0x00. -/
def Memory.cleared : Memory := []

/-- Bytes `a .. a+n-1` as one big-endian number (R52, R53). -/
def Memory.readBE (m : Memory) (a n : Nat) : Nat :=
  (List.range n).foldl (fun acc k => acc * 256 + (Memory.read m (a + k)).toNat) 0

/-- R53: byte `k` of the `8n`-bit number `v`, most significant first. -/
def byteBE (v n k : Nat) : Byte := BitVec.ofNat 8 (v / 256 ^ (n - 1 - k))

/-- `v` written big-endian into bytes `a .. a+n-1` (R52, R53). -/
def Memory.writeBE (m : Memory) (a n v : Nat) : Memory :=
  (List.range n).foldl (fun m k => Memory.write m (a + k) (byteBE v n k)) m

/-- R53: the accesses that exist, `a + n <= 64` with `n` in {1, 4, 8}. -/
def accessInBounds (a n : Nat) : Bool := decide (a + n ≤ Config.bufBytes) && (n == 1 || n == 4 || n == 8)

/-- R53: `MemRead(BUF, a, n)`. -/
def memRead (m : Memory) (a n : Nat) : Option Nat :=
  if accessInBounds a n then some (Memory.readBE m a n) else none

/-- R53: `MemWrite(BUF, a, n, v)`. -/
def memWrite (m : Memory) (a n v : Nat) : Option Memory :=
  if accessInBounds a n then some (Memory.writeBE m a n v) else none

/-- R180: the 64 bytes of `BUF` as `blk_data` shows them, byte 0 at bits 511:504. -/
def blockBits (m : Memory) : BitVec 512 := BitVec.ofNat 512 (Memory.readBE m 0 64)

/-! ## The outputs of a step -/

/-- The outcome of an instruction. -/
abbrev Result := Host.Outcome State Fault Refusal

/-- `s` with the outputs of a step that accepts nothing and emits nothing. -/
def State.quiet (s : State) : State := { s with out := Outputs.quiet }

/-- `accept beat` (00_scope R11): `src_accept = 1` in this step. -/
def State.acceptBeat (s : State) : State := { s with out := { s.out with srcAccept := true } }

/-- `accept cmd` (00_scope R11): `cmd_accept = 1` in this step. -/
def State.acceptCmd (s : State) : State := { s with out := { s.out with cmdAccept := true } }

/-- `emit BUF` (41_padder R120): the block tap shows `BUF` as it is after this step's writes; no state is written. -/
def State.emit (s : State) : State := { s with out := { s.out with blk := some (blockBits s.buf) } }

/-! ## Taking a fault, and reset -/

/-- R197: fault entry. `PH <- FAULT`, `CAUSE <- c`, no other element of the core's state is written. (The beat being
accepted in the step is consumed: the caller says so by `acceptBeat`.) -/
def raiseFault (c : Cause) (s : State) : State := { s with ph := .fault, cause := c }

/-- R153: `raise Fault(INVARIANT)`, for a state the sequencer should never be in. -/
def invariantFault (s : State) : Result := .next (raiseFault .invariant s.quiet)

/-- R222 (V2): `H` after a reset step is any value (log 5). -/
def freeH (n : Nat) : Digest where
  h0 := Config.freeWord n 0
  h1 := Config.freeWord n 1
  h2 := Config.freeWord n 2
  h3 := Config.freeWord n 3
  h4 := Config.freeWord n 4

/-- R222 (V2): `A..E` after a reset step are any values (log 5). -/
def freeWork (n : Nat) : Work where
  a := Config.freeWord n 5
  b := Config.freeWord n 6
  c := Config.freeWord n 7
  d := Config.freeWord n 8
  e := Config.freeWord n 9

/-- R222 (V2): `W` after a reset step is any value (log 5). -/
@[irreducible] def freeSchedule (n : Nat) : Vector Word 80 := Vector.ofFn fun i => Config.freeWord n (10 + i.val)

/-- R222 (V2): `BUF` after a reset step is any value (log 5). -/
@[irreducible] def freeBuf (n : Nat) : Memory :=
  (List.range 64).foldl (fun m k => Memory.write m k (Config.freeByte n k)) Memory.cleared

/-- R220: the reset step. No command and no beat is accepted; `PH`, `CAUSE`, `COUNT`, `FILL`, `OWED`, `EXH`, `T` are
written; `H`, `A..E`, `W`, `BUF` hold no specified value afterwards (R222) and become free values (log 5). -/
def resetStep (s : State) : State :=
  { s with
    ph := .idle
    cause := .none
    count := 0
    fill := 0
    owed := false
    exh := false
    t := 0
    h := freeH s.freeCtr
    v := freeWork s.freeCtr
    w := freeSchedule s.freeCtr
    buf := freeBuf s.freeCtr
    out := Outputs.quiet }

end Sys2Proof.Machine
end

