-- ==== Sys2Proof/Machine/WordUnit.lean ====
section
/-! DEFINITION. The Word unit (40_word.md): the six primitives, pure functions, and the meanings of the PRIM rows,
which run one primitive on its own (log 8). -/

namespace Sys2Proof.Machine

/-- R101, R108: the exact integer sum reduced modulo 2^32. -/
def add32 (a b : Word) : Word := BitVec.ofNat 32 ((a.toNat + b.toNat) % 2 ^ 32)

/-- R102: `((a * 2^n) mod 2^32) + (a div 2^(32-n))` for `1 <= n <= 31`, `a` for `n = 0`. -/
def rotl32 (a : Word) (n : Fin 32) : Word :=
  if n.val = 0 then a
  else BitVec.ofNat 32 ((a.toNat * 2 ^ n.val) % 2 ^ 32 + a.toNat / 2 ^ (32 - n.val))

/-- R103. -/
def and32 (a b : Word) : Word := a &&& b

/-- R104. -/
def or32 (a b : Word) : Word := a ||| b

/-- R105. -/
def xor32 (a b : Word) : Word := a ^^^ b

/-- R106. -/
def not32 (a : Word) : Word := ~~~a

/-- A primitive run on its own: its result is shown, no state is written (40_word.md heading; log 8). -/
def State.showWord (r : Word) (s : State) : State := { s with out := { Outputs.quiet with word := some r } }

/-- R101. -/
def execAdd32 (a b : Word) (s : State) : Result := .next (s.showWord (add32 a b))

/-- R102; an amount of 32 or more is refused, not reduced (D17, V13). -/
def execRotl32 (a n : Word) (s : State) : Result :=
  if h : n.toNat < 32 then .next (s.showWord (rotl32 a ⟨n.toNat, h⟩)) else .refused .rotAmount

/-- R103. -/
def execAnd32 (a b : Word) (s : State) : Result := .next (s.showWord (and32 a b))

/-- R104. -/
def execOr32 (a b : Word) (s : State) : Result := .next (s.showWord (or32 a b))

/-- R105. -/
def execXor32 (a b : Word) (s : State) : Result := .next (s.showWord (xor32 a b))

/-- R106. -/
def execNot32 (a : Word) (s : State) : Result := .next (s.showWord (not32 a))

/-- R88(e), V12: never issued, no behaviour defined. -/
def execPrimReserved (_lo : Bool) (_s : State) : Result := .refused .reservedPrim

end Sys2Proof.Machine
end

