-- ==== Sys2Proof/Machine/Operands.lean ====
section
/-! DEFINITION. The operands of the micro-operations: the hardwired constants (30_encoding.md R90), the offered beat,
the length operand (R76), the schedule words (42_compress.md R141, R142), the round function and constant (R144, R145). -/

namespace Sys2Proof.Machine

/-! ## Hardwired constants (R90) -/

/-- R156: the initial digest state. -/
def digestIV : Digest where
  h0 := 0x67452301
  h1 := 0xEFCDAB89
  h2 := 0x98BADCFE
  h3 := 0x10325476
  h4 := 0xC3D2E1F0

/-- R90: the terminator byte. -/
def terminator : Byte := 0x80

/-- R26: the largest value of `COUNT`, 2^61 - 1. -/
def countMax : BitVec 61 := BitVec.ofNat 61 (2 ^ 61 - 1)

/-! ## The round function and the round constant -/

/-- R144, quadrant 0. -/
def roundF0 (b c d : Word) : Word := or32 (and32 b c) (and32 (not32 b) d)

/-- R144, quadrant 1. -/
def roundF1 (b c d : Word) : Word := xor32 (xor32 b c) d

/-- R144, quadrant 2. -/
def roundF2 (b c d : Word) : Word := or32 (or32 (and32 b c) (and32 b d)) (and32 c d)

/-- R144, quadrant 3. -/
def roundF3 (b c d : Word) : Word := xor32 (xor32 b c) d

/-- R145, quadrant 0. -/
def roundK0 : Word := 0x5A827999

/-- R145, quadrant 1. -/
def roundK1 : Word := 0x6ED9EBA1

/-- R145, quadrant 2. -/
def roundK2 : Word := 0x8F1BBCDC

/-- R145, quadrant 3. -/
def roundK3 : Word := 0xCA62C1D6

/-! ## The length operand -/

/-- R76: `L = zext_64(COUNT) * 8`. -/
def bitLength (count : BitVec 61) : Nat := count.toNat * 8

/-- R112, R116: the length operand written into bytes 56 to 63 of `BUF`. -/
def writeLength (m : Memory) (count : BitVec 61) : Memory := Memory.writeBE m 56 8 (bitLength count)

/-! ## The schedule -/

/-- R141: word `i` of the block, `MemRead(BUF, 4i, 4)`. -/
def blockWord (m : Memory) (i : Nat) : Word := BitVec.ofNat 32 (Memory.readBE m (4 * i) 4)

/-- R141: `W` with `W[0..15]` read from `BUF`. -/
def loadSchedule (m : Memory) (w : Vector Word 80) : Vector Word 80 :=
  Vector.ofFn fun i => if i.val < 16 then blockWord m i.val else w[i]

/-- R142: the recurrence on its four source words. -/
def expandWord (w3 w8 w14 w16 : Word) : Word := rotl32 (xor32 (xor32 (xor32 w3 w8) w14) w16) 1

/-! ## The offered beat and the offered command -/

/-- R82: the source lines show this beat (`src_valid = 1`). -/
def State.offerBeat (kind : BitVec 2) (data : Byte) (s : State) : State :=
  { s with inp := { s.inp with srcValid := true, srcKind := kind, srcData := data } }

/-- R81: the command lines show this command (`cmd_valid = 1`). -/
def State.offerCmd (c : BitVec 2) (s : State) : State :=
  { s with inp := { s.inp with cmdValid := true, cmd := c } }

end Sys2Proof.Machine
end

