-- ==== Sys2Proof/Machine/Padder.lean ====
section
/-! DEFINITION. The micro-operations of the Block Padder (41_padder.md R111 to R119, R125). -/

namespace Sys2Proof.Machine

/-- R111: the sequence is exhausted. -/
def execPadNextExh (s : State) : Result := .next { s.quiet with ph := .done }

/-- R112: the length-only block. -/
def execPadNextOwed (s : State) : Result :=
  .next { s.quiet with
    buf := writeLength Memory.cleared s.count
    exh := true
    owed := false
    ph := .load }.emit

/-- R113: begin a read into a cleared buffer. -/
def execPadNextRead (s : State) : Result :=
  .next { s.quiet with buf := Memory.cleared, fill := 0, ph := .fill }

/-- R115: a full read, emit a pure data block. -/
def execPadFull (s : State) : Result := .next { s.quiet with ph := .load }.emit

/-- R119: nothing offered, no step is taken, the state does not change. -/
def execPadWait (s : State) : Result := .next s.quiet

/-- R114, with the offered byte as operand. -/
def padDataOp (b : Byte) (s : State) : Result :=
  match memWrite s.buf s.fill.toNat 1 b.toNat with
  | some m => .next { s.quiet with buf := m, fill := s.fill + 1, count := s.count + 1, ph := .fill }.acceptBeat
  | none => .fault .bufRange

/-- R114: accept one data byte. -/
def execPadData (s : State) : Result := padDataOp s.inp.srcData s

/-- R125: the byte that would overflow the length. -/
def padDataOvfOp (s : State) : Result := .next (raiseFault .lenOverflow s.quiet).acceptBeat

/-- R125. -/
def execPadDataOvf (s : State) : Result := padDataOvfOp s

/-- R116: terminator and length into this block. -/
def padEosFitOp (s : State) : Result :=
  match memWrite s.buf s.fill.toNat 1 terminator.toNat with
  | some m => .next { s.quiet with buf := writeLength m s.count, exh := true, ph := .load }.acceptBeat.emit
  | none => .fault .bufRange

/-- R116. -/
def execPadEosFit (s : State) : Result := padEosFitOp s

/-- R117: the terminator into this block, the length-only block is owed. -/
def padEosSpillOp (s : State) : Result :=
  match memWrite s.buf s.fill.toNat 1 terminator.toNat with
  | some m => .next { s.quiet with buf := m, owed := true, ph := .load }.acceptBeat.emit
  | none => .fault .bufRange

/-- R117. -/
def execPadEosSpill (s : State) : Result := padEosSpillOp s

/-- R118: the source failed. -/
def padErrOp (s : State) : Result := .next (raiseFault .srcError s.quiet).acceptBeat

/-- R118. -/
def execPadErr (s : State) : Result := padErrOp s

end Sys2Proof.Machine
end

