-- ==== Sys2Proof/Machine/Beats.lean ====
section
/-! DEFINITION. The beat kinds of the byte source (30_encoding.md R82, R88(b)): the source offers the beat in this
step. It is accepted in phase `FILL` with `FILL < 64`, by the micro-operation the table names beside the beat, and stays
pending everywhere else (70_reset_and_hazards.md R230; log 15). -/

namespace Sys2Proof.Machine

/-- R230: beats are accepted only in phase `FILL` with `FILL < 64`. -/
def State.acceptsBeat (s : State) : Bool := s.ph == .fill && decide (s.fill.toNat < 64)

/-- R230: a beat offered at any other moment stays pending at the source, and nothing else happens. -/
def beatPending (s : State) : Result := .next s.quiet

/-- R82, consumed by `PAD.DATA` (R114) or `PAD.DATA.OVF` (R125). -/
def execBeatData (b : Byte) (s : State) : Result :=
  let s := s.offerBeat 0b00 b
  if s.acceptsBeat then (if s.count = countMax then padDataOvfOp s else padDataOp b s) else beatPending s

/-- R82, consumed by `PAD.EOS.FIT` (R116) or `PAD.EOS.SPILL` (R117); the data bits are ignored. -/
def execBeatEos (ignored : Byte) (s : State) : Result :=
  let s := s.offerBeat 0b01 ignored
  if s.acceptsBeat then (if 56 ≤ s.fill.toNat then padEosSpillOp s else padEosFitOp s) else beatPending s

/-- R82, consumed by `PAD.ERR` (R118); the data bits are ignored. -/
def execBeatErr (ignored : Byte) (s : State) : Result :=
  let s := s.offerBeat 0b10 ignored
  if s.acceptsBeat then padErrOp s else beatPending s

/-- R88(b): kind 11 is treated as ERR. -/
def execBeatReserved (ignored : Byte) (s : State) : Result :=
  let s := s.offerBeat 0b11 ignored
  if s.acceptsBeat then padErrOp s else beatPending s

end Sys2Proof.Machine
end

