-- ==== Sys2Proof/Machine/Compress.lean ====
section
/-! DEFINITION. The micro-operations of the Compression Engine (42_compress.md R141 to R151). -/

namespace Sys2Proof.Machine

/-- R141: block to the first sixteen schedule words. -/
def execCeLoad (s : State) : Result :=
  .next { s.quiet with w := loadSchedule s.buf s.w, t := 16, ph := .expand }

/-- R142: one more schedule word. `T` outside 16..79 is R153. -/
def execCeExpand (s : State) : Result :=
  if h : 16 ≤ s.t.toNat ∧ s.t.toNat < 80 then
    let x := expandWord s.w[s.t.toNat - 3] s.w[s.t.toNat - 8] s.w[s.t.toNat - 14] s.w[s.t.toNat - 16]
    let w := s.w.set s.t.toNat x
    if s.t.toNat = 79 then .next { s.quiet with w := w, ph := .initv }
    else .next { s.quiet with w := w, t := s.t + 1, ph := .expand }
  else invariantFault s

/-- R143: load the working variables. -/
def execCeInitv (s : State) : Result :=
  .next { s.quiet with
    v := { a := s.h.h0, b := s.h.h1, c := s.h.h2, d := s.h.h3, e := s.h.h4 }
    t := 0
    ph := .round }

/-- R150: the five working variables after a round with round-function value `f`, schedule word `wt`, constant `k`. -/
def roundWork (v : Work) (f wt k : Word) : Work where
  a := add32 (add32 (add32 (add32 (rotl32 v.a 5) f) v.e) wt) k
  b := v.a
  c := rotl32 v.b 30
  d := v.c
  e := v.d

/-- R150: the round datapath, common to the four round micro-operations; `T >= 80` is R153. -/
def roundOp (f : Word → Word → Word → Word) (k : Word) (s : State) : Result :=
  if h : s.t.toNat < 80 then
    let v := roundWork s.v (f s.v.b s.v.c s.v.d) s.w[s.t.toNat] k
    if s.t.toNat = 79 then .next { s.quiet with v := v, ph := .acc }
    else .next { s.quiet with v := v, t := s.t + 1, ph := .round }
  else invariantFault s

/-- R146. -/
def execCeRoundF0 (s : State) : Result := roundOp roundF0 roundK0 s

/-- R147. -/
def execCeRoundF1 (s : State) : Result := roundOp roundF1 roundK1 s

/-- R148. -/
def execCeRoundF2 (s : State) : Result := roundOp roundF2 roundK2 s

/-- R149. -/
def execCeRoundF3 (s : State) : Result := roundOp roundF3 roundK3 s

/-- R151: each word of the digest state plus its working variable, modulo 2^32. -/
def accumulate (h : Digest) (v : Work) : Digest where
  h0 := add32 h.h0 v.a
  h1 := add32 h.h1 v.b
  h2 := add32 h.h2 v.c
  h3 := add32 h.h3 v.d
  h4 := add32 h.h4 v.e

/-- R151: state accumulation. -/
def execCeAcc (s : State) : Result := .next { s.quiet with h := accumulate s.h s.v, ph := .req }

end Sys2Proof.Machine
end

