-- ==== Sys2Proof/WellFormed.lean ====
section
/-! DEFINITION. Which instruction terms the spec gives: the one operand with a bound is the rotation amount. -/

namespace Sys2Proof

/-- R102: `0 <= n < 32`; every other operand takes every value of its width. -/
def wellFormed : Instr → Bool
  | .rotl32 _ n => decide (n.toNat < 32)
  | .cmdNop | .cmdStart | .cmdReserved _ => true
  | .beatData _ | .beatEos _ | .beatErr _ | .beatReserved _ => true
  | .seqHoldIdle | .seqHoldDone | .seqHoldFault => true
  | .padNextExh | .padNextOwed | .padNextRead | .padFull | .padWait | .padData | .padDataOvf => true
  | .padEosFit | .padEosSpill | .padErr => true
  | .ceLoad | .ceExpand | .ceInitv | .ceRoundF0 | .ceRoundF1 | .ceRoundF2 | .ceRoundF3 | .ceAcc => true
  | .seqInvExpandHigh | .seqInvExpandLow | .seqInvRoundHigh => true
  | .seqInvPh9 | .seqInvPhAB | .seqInvPhCD | .seqInvPhE => true
  | .add32 _ _ | .and32 _ _ | .or32 _ _ | .xor32 _ _ | .not32 _ | .primReserved _ => true
  | .fmtHex => true

end Sys2Proof
end

