-- ==== Sys2Proof/Decode.lean ====
section
/-! DEFINITION. The encodings of 30_encoding.md: phase and cause codes (R83, R84), the dispatch word DW and its
opcode map (R86), CMD (R81), BEAT (R82), PRIM (R87); the decoder, total on any number, and the encoder after it. -/

namespace Sys2Proof

/-- R83: the phase code. -/
def Phase.code : Phase → BitVec 4
  | .idle => 0x0 | .req => 0x1 | .fill => 0x2 | .load => 0x3 | .expand => 0x4
  | .initv => 0x5 | .round => 0x6 | .acc => 0x7 | .done => 0x8 | .fault => 0xF
  | .rsv9 => 0x9 | .rsvA => 0xA | .rsvB => 0xB | .rsvC => 0xC | .rsvD => 0xD | .rsvE => 0xE

/-- R83, read the other way. -/
def Phase.ofCode (c : BitVec 4) : Phase :=
  match c.toNat with
  | 0x0 => .idle | 0x1 => .req | 0x2 => .fill | 0x3 => .load | 0x4 => .expand
  | 0x5 => .initv | 0x6 => .round | 0x7 => .acc | 0x8 => .done | 0x9 => .rsv9
  | 0xA => .rsvA | 0xB => .rsvB | 0xC => .rsvC | 0xD => .rsvD | 0xE => .rsvE
  | _ => .fault

/-- R84: the fault cause code. -/
def Cause.code : Cause → BitVec 2
  | .none => 0 | .srcError => 1 | .lenOverflow => 2 | .invariant => 3

/-- R86: the dispatch word, `PH` at bits 15:12 down to `TLO` at bit 0. -/
def Dw.pack (d : Dw) : BitVec 16 :=
  d.ph.code ++ BitVec.ofBool d.exh ++ BitVec.ofBool d.owed ++ BitVec.ofBool d.full ++ BitVec.ofBool d.hi
    ++ d.bk ++ BitVec.ofBool d.bv ++ d.q ++ BitVec.ofBool d.tov ++ BitVec.ofBool d.cntmax ++ BitVec.ofBool d.tlo

/-- R86: the fields of a dispatch word. -/
def Dw.unpack (w : BitVec 16) : Dw where
  ph := Phase.ofCode (w.extractLsb' 12 4)
  exh := w.getLsbD 11
  owed := w.getLsbD 10
  full := w.getLsbD 9
  hi := w.getLsbD 8
  bk := w.extractLsb' 6 2
  bv := w.getLsbD 5
  q := w.extractLsb' 3 2
  tov := w.getLsbD 2
  cntmax := w.getLsbD 1
  tlo := w.getLsbD 0

/-- R86, the opcode map: the micro-operation a dispatch word selects, by its "other fields tested" column. -/
def selectUop (d : Dw) : Instr :=
  match d.ph with
  | .idle => .seqHoldIdle
  | .req => if d.exh then .padNextExh else if d.owed then .padNextOwed else .padNextRead
  | .fill =>
    if d.full then .padFull
    else if !d.bv then .padWait
    else if d.bk.getLsbD 1 then .padErr
    else if d.bk.getLsbD 0 then (if d.hi then .padEosSpill else .padEosFit)
    else if d.cntmax then .padDataOvf else .padData
  | .load => .ceLoad
  | .expand => if d.tov then .seqInvExpandHigh else if d.tlo then .seqInvExpandLow else .ceExpand
  | .initv => .ceInitv
  | .round =>
    if d.tov then .seqInvRoundHigh
    else if d.q = 0 then .ceRoundF0 else if d.q = 1 then .ceRoundF1
    else if d.q = 2 then .ceRoundF2 else .ceRoundF3
  | .acc => .ceAcc
  | .done => .seqHoldDone
  | .rsv9 => .seqInvPh9
  | .rsvA | .rsvB => .seqInvPhAB
  | .rsvC | .rsvD => .seqInvPhCD
  | .rsvE => .seqInvPhE
  | .fault => .seqHoldFault

/-- R86: the micro-operation a 16-bit dispatch word selects. -/
def decodeUop (w : BitVec 16) : Instr := selectUop (Dw.unpack w)

/-- R81: the command code. -/
def decodeCmd (w : BitVec 2) : Instr :=
  if w.getLsbD 1 then .cmdReserved (w.getLsbD 0)
  else if w.getLsbD 0 then .cmdStart else .cmdNop

/-- R82: `kind` at bits 9:8, `data` at bits 7:0. -/
def decodeBeat (w : BitVec 10) : Instr :=
  let data := w.extractLsb' 0 8
  if w.getLsbD 9 then (if w.getLsbD 8 then .beatReserved data else .beatErr data)
  else if w.getLsbD 8 then .beatEos data else .beatData data

/-- R87: function select `fn`, with its operand words `a` and `b`. -/
def decodePrimFn (fn : Nat) (a b : Word) : Except Reject Instr :=
  match fn with
  | 0 => .ok (.add32 a b)
  | 1 => if b.toNat < 32 then .ok (.rotl32 a b) else .error .rotAmount
  | 2 => .ok (.and32 a b)
  | 3 => .ok (.or32 a b)
  | 4 => .ok (.xor32 a b)
  | 5 => if b = 0 then .ok (.not32 a) else .error .unusedBits
  | 6 => if a = 0 ∧ b = 0 then .ok (.primReserved false) else .error .unusedBits
  | 7 => if a = 0 ∧ b = 0 then .ok (.primReserved true) else .error .unusedBits
  | _ => .error .unusedBits

/-- The 72-bit form of a primitive with its operands (log 10): `fn` at bits 2:0 (R87), bits 7:3 unused, operand
`a` at bits 39:8, operand `b` (or the amount) at bits 71:40. -/
def decodePrim (w : BitVec 72) : Except Reject Instr :=
  decodePrimFn (w.extractLsb' 0 8).toNat (w.extractLsb' 8 32) (w.extractLsb' 40 32)

/-- The width of a format in bits (R70; PRIM with its operand words, log 10). -/
def Format.width : Format → Nat
  | .cmd => 2 | .beat => 10 | .uop => 16 | .prim => 72 | .fmt => 0

/-- The decoder: any number, in any format; refuses by name. -/
def decode (f : Format) (w : Nat) : Except Reject Instr :=
  if w < 2 ^ f.width then
    match f with
    | .cmd => .ok (decodeCmd (BitVec.ofNat 2 w))
    | .beat => .ok (decodeBeat (BitVec.ofNat 10 w))
    | .uop => .ok (decodeUop (BitVec.ofNat 16 w))
    | .prim => decodePrim (BitVec.ofNat 72 w)
    | .fmt => .ok .fmtHex
  else .error .width

/-- A PRIM word: see `decodePrim`. -/
def primWord (fn : BitVec 3) (a b : Word) : BitVec 72 :=
  b ++ a ++ (fn.setWidth 8 : BitVec 8)

/-- The encoder, from the tables R81, R82, R86 (the row's `match` value), R87. -/
def encode : Instr → Format × Nat
  | .cmdNop => (.cmd, 0b00)
  | .cmdStart => (.cmd, 0b01)
  | .cmdReserved lo => (.cmd, (BitVec.ofBool true ++ BitVec.ofBool lo).toNat)
  | .beatData b => (.beat, ((0b00 : BitVec 2) ++ b).toNat)
  | .beatEos d => (.beat, ((0b01 : BitVec 2) ++ d).toNat)
  | .beatErr d => (.beat, ((0b10 : BitVec 2) ++ d).toNat)
  | .beatReserved d => (.beat, ((0b11 : BitVec 2) ++ d).toNat)
  | .seqHoldIdle => (.uop, 0x0000)
  | .padNextExh => (.uop, 0x1800)
  | .padNextOwed => (.uop, 0x1400)
  | .padNextRead => (.uop, 0x1000)
  | .padFull => (.uop, 0x2200)
  | .padWait => (.uop, 0x2000)
  | .padData => (.uop, 0x2020)
  | .padDataOvf => (.uop, 0x2022)
  | .padEosFit => (.uop, 0x2060)
  | .padEosSpill => (.uop, 0x2160)
  | .padErr => (.uop, 0x20A0)
  | .ceLoad => (.uop, 0x3000)
  | .ceExpand => (.uop, 0x4000)
  | .seqInvExpandHigh => (.uop, 0x4004)
  | .seqInvExpandLow => (.uop, 0x4001)
  | .ceInitv => (.uop, 0x5000)
  | .ceRoundF0 => (.uop, 0x6000)
  | .ceRoundF1 => (.uop, 0x6008)
  | .ceRoundF2 => (.uop, 0x6010)
  | .ceRoundF3 => (.uop, 0x6018)
  | .seqInvRoundHigh => (.uop, 0x6004)
  | .ceAcc => (.uop, 0x7000)
  | .seqHoldDone => (.uop, 0x8000)
  | .seqInvPh9 => (.uop, 0x9000)
  | .seqInvPhAB => (.uop, 0xA000)
  | .seqInvPhCD => (.uop, 0xC000)
  | .seqInvPhE => (.uop, 0xE000)
  | .seqHoldFault => (.uop, 0xF000)
  | .add32 a b => (.prim, (primWord 0b000 a b).toNat)
  | .rotl32 a n => (.prim, (primWord 0b001 a n).toNat)
  | .and32 a b => (.prim, (primWord 0b010 a b).toNat)
  | .or32 a b => (.prim, (primWord 0b011 a b).toNat)
  | .xor32 a b => (.prim, (primWord 0b100 a b).toNat)
  | .not32 a => (.prim, (primWord 0b101 a 0).toNat)
  | .primReserved false => (.prim, (primWord 0b110 0 0).toNat)
  | .primReserved true => (.prim, (primWord 0b111 0 0).toNat)
  | .fmtHex => (.fmt, 0)

/-- The opcode map of R86 as the spec prints it, row by row: match, mask, micro-operation (phases 0 to 4). -/
def uopRowsLow : List (BitVec 16 × BitVec 16 × Instr) :=
  [(0x0000, 0xF000, .seqHoldIdle), (0x1800, 0xF800, .padNextExh), (0x1400, 0xFC00, .padNextOwed),
   (0x1000, 0xFC00, .padNextRead), (0x2200, 0xF200, .padFull), (0x2000, 0xF220, .padWait),
   (0x2020, 0xF2E2, .padData), (0x2022, 0xF2E2, .padDataOvf), (0x2060, 0xF3E0, .padEosFit),
   (0x2160, 0xF3E0, .padEosSpill), (0x20A0, 0xF2A0, .padErr), (0x3000, 0xF000, .ceLoad),
   (0x4000, 0xF005, .ceExpand), (0x4004, 0xF004, .seqInvExpandHigh), (0x4001, 0xF005, .seqInvExpandLow)]

/-- The opcode map of R86, phases 5 to F. -/
def uopRowsHigh : List (BitVec 16 × BitVec 16 × Instr) :=
  [(0x5000, 0xF000, .ceInitv), (0x6000, 0xF01C, .ceRoundF0), (0x6008, 0xF01C, .ceRoundF1),
   (0x6010, 0xF01C, .ceRoundF2), (0x6018, 0xF01C, .ceRoundF3), (0x6004, 0xF004, .seqInvRoundHigh),
   (0x7000, 0xF000, .ceAcc), (0x8000, 0xF000, .seqHoldDone), (0x9000, 0xF000, .seqInvPh9),
   (0xA000, 0xE000, .seqInvPhAB), (0xC000, 0xE000, .seqInvPhCD), (0xE000, 0xF000, .seqInvPhE),
   (0xF000, 0xF000, .seqHoldFault)]

/-- The whole opcode map of R86, 28 rows. -/
def uopRows : List (BitVec 16 × BitVec 16 × Instr) := uopRowsLow ++ uopRowsHigh

/-- Which format a word of the opcode table is read in, by the number of bits the table gives its row. Widths 2, 3,
10, 16 are the formats' own (R70). CMD and PRIM both fill one byte, and BEAT and UOP both fill two, so a word given
in whole bytes has two readings: log 11 says which is taken. -/
def tableFormat (nbits w : Nat) : Option Format :=
  match nbits with
  | 0 => some .fmt
  | 2 => some .cmd
  | 3 => some .prim
  | 8 => if w < 3 then some .cmd else some .prim
  | 10 => some .beat
  | 16 => if 0x100 ≤ w ∧ w < 0x400 then some .beat else some .uop
  | 72 => some .prim
  | _ => none

/-- The instruction the decoder reads from a word of the opcode table (bits above `nbits` are zero). -/
def decodeTableWord (nbits w : Nat) : Option Instr :=
  if w < 2 ^ nbits then
    (tableFormat nbits w).bind fun f => (decode f w).toOption
  else none

end Sys2Proof
end

