-- ==== Sys2Proof/Machine/Flags.lean ====
section
/-! DEFINITION. The derived signals and STATUS (10_state.md R32, R33; 30_encoding.md R85), the fields of the dispatch
word (R86), and the output ports (00_scope.md R9; 43_host_output.md R174 to R180). The padder's two flags OWED and EXH
are fields of State, written by the padder's meanings. -/

namespace Sys2Proof.Machine

/-! ## Derived signals and STATUS -/

/-- R33: `DIGEST_VALID`; output `done` (R195). -/
def State.done (s : State) : Bool := s.ph == .done

/-- R33: `FAULTED`; output `fault` (R195). -/
def State.faulted (s : State) : Bool := s.ph == .fault

/-- R33: `BUSY`; output `busy` (R195). -/
def State.busy (s : State) : Bool :=
  match s.ph with
  | .req | .fill | .load | .expand | .initv | .round | .acc => true
  | _ => false

/-- R32, R85: `STATUS = CAUSE ‖ FAULTBIT ‖ VALIDBIT ‖ PH`. -/
def State.status (s : State) : BitVec 8 :=
  s.cause.code ++ BitVec.ofBool s.faulted ++ BitVec.ofBool s.done ++ s.ph.code

/-! ## The dispatch word -/

/-- R86: `Q = T div 20` when `T <= 79`, else 0. -/
def quadrant (t : BitVec 7) : BitVec 2 := if t.toNat ≤ 79 then BitVec.ofNat 2 (t.toNat / 20) else 0

/-- R86: the fields of DW, a function of the state and of the offered beat. -/
def State.dw (s : State) : Dw where
  ph := s.ph
  exh := s.exh
  owed := s.owed
  full := decide (s.fill.toNat = 64)
  hi := decide (56 ≤ s.fill.toNat)
  bk := if s.inp.srcValid then s.inp.srcKind else 0
  bv := s.inp.srcValid
  q := quadrant s.t
  tov := decide (80 ≤ s.t.toNat)
  cntmax := decide (s.count = countMax)
  tlo := decide (s.t.toNat < 16)

/-- R86: the 16-bit dispatch word. -/
def State.dispatchWord (s : State) : BitVec 16 := s.dw.pack

/-! ## The digest and the Digest Formatter -/

/-- R78, R174: `H[0] ‖ H[1] ‖ H[2] ‖ H[3] ‖ H[4]`. -/
def Digest.bits (h : Digest) : BitVec 160 := h.h0 ++ h.h1 ++ h.h2 ++ h.h3 ++ h.h4

/-- R79, R175: the digest as 20 raw bytes. -/
def Digest.bytes (h : Digest) : List Byte := (List.range 20).map fun j => h.bits.extractLsb' (152 - 8 * j) 8

/-- `H[i]` by index (R21). -/
def Digest.get (h : Digest) (i : Nat) : Word :=
  match i with
  | 0 => h.h0 | 1 => h.h1 | 2 => h.h2 | 3 => h.h3 | _ => h.h4

/-- R80, R176: the 4-bit value character `c` shows, `H[c div 8][31 - 4(c mod 8) : 28 - 4(c mod 8)]`. -/
def hexNibble (h : Digest) (c : Nat) : BitVec 4 := (h.get (c / 8)).extractLsb' (28 - 4 * (c % 8)) 4

/-- R80: the ASCII code of a lowercase hexadecimal digit (the character code is general knowledge of the spec, G2; log 21). -/
def hexAscii (v : BitVec 4) : Byte :=
  if v.toNat ≤ 9 then BitVec.ofNat 8 (0x30 + v.toNat) else BitVec.ofNat 8 (0x61 + (v.toNat - 10))

/-- R176: the characters `"0123456789abcdef"`. -/
def hexChar (v : BitVec 4) : Char :=
  match v.toNat with
  | 0 => '0' | 1 => '1' | 2 => '2' | 3 => '3' | 4 => '4' | 5 => '5' | 6 => '6' | 7 => '7'
  | 8 => '8' | 9 => '9' | 10 => 'a' | 11 => 'b' | 12 => 'c' | 13 => 'd' | 14 => 'e' | _ => 'f'

/-- R80, R176: the 40-character string, as characters. -/
def Digest.hexChars (h : Digest) : List Char := (List.range 40).map fun c => hexChar (hexNibble h c)

/-- R80: the 40 characters on the `hex` port in ASCII (presumed, log 21), character `c` at bits `319-8c` down to `312-8c`. -/
def Digest.hexBits (h : Digest) : BitVec 320 :=
  BitVec.ofNat 320 ((List.range 40).foldl (fun acc c => acc * 256 + (hexAscii (hexNibble h c)).toNat) 0)

/-! ## The output ports -/

/-- R177: the phases in which the digest ports show `H` (the digest in `DONE`, the running state while busy, V4); in
`IDLE` and in `FAULT` they are unspecified. -/
def State.readOutDefined (s : State) : Bool := s.done || s.busy

/-- R174, R177: the `digest` port; a free value in `IDLE` and `FAULT` (log 6), the running `H` while busy (V4). -/
def State.digestPort (s : State) : BitVec 160 :=
  if s.readOutDefined then s.h.bits else Config.freeDigest s.freeCtr

/-- R176, R177: the `hex` port; a free value in `IDLE` and `FAULT` (log 6). -/
def State.hexPort (s : State) : BitVec 320 :=
  if s.readOutDefined then s.h.hexBits else Config.freeHex s.freeCtr

/-- R180: the port `blk_valid` of the last step. -/
def State.blkValid (s : State) : Bool := s.out.blk.isSome

/-- R180: the port `blk_data` of the last step; a free value while `blk_valid = 0` (log 6). -/
def State.blkData (s : State) : BitVec 512 := s.out.blk.getD (Config.freeBlkData s.freeCtr)

end Sys2Proof.Machine
end

