-- ==== Sys2Proof/Machine/Formatter.lean ====
section
/-! DEFINITION. The Digest Formatter run on its own (43_host_output.md R176; log 8). -/

namespace Sys2Proof.Machine

/-- R176: the 40-character string on the `hex` port is shown; no state is written. -/
def execFmtHex (s : State) : Result := .next { s with out := { Outputs.quiet with hex := some s.hexPort } }

end Sys2Proof.Machine
end

