-- ==== Sys2Proof/Machine/HostCmd.lean ====
section
/-! DEFINITION. The host commands (43_host_output.md R170 to R172). -/

namespace Sys2Proof.Machine

/-- R171: `CMD.START` is accepted in `IDLE` and `DONE` only. -/
def State.acceptsStart (s : State) : Bool := s.ph == .idle || s.ph == .done

/-- R170: accepted in every phase, changes no state. -/
def execCmdNop (s : State) : Result := .next (s.offerCmd 0b00).quiet.acceptCmd

/-- R171: begin a digest computation. In any other phase the command is not accepted and stays offered (R227; log 16). -/
def execCmdStart (s : State) : Result :=
  let s := s.offerCmd 0b01
  if s.acceptsStart then
    .next { s.quiet with h := digestIV, count := 0, owed := false, exh := false, ph := .req }.acceptCmd
  else .next s.quiet

/-- R172: 10 and 11 behave exactly as `CMD.NOP`. -/
def execCmdReserved (lo : Bool) (s : State) : Result :=
  .next (s.offerCmd (BitVec.ofBool true ++ BitVec.ofBool lo)).quiet.acceptCmd

end Sys2Proof.Machine
end

