-- ==== Sys2Proof/Machine/Sequencer.lean ====
section
/-! DEFINITION. The holds of the sequencer (43_host_output.md R179) and `SEQ.INVARIANT` (42_compress.md R153), one
definition for each of its seven rows of the opcode table. -/

namespace Sys2Proof.Machine

/-- R179: the sequencer takes no step and no state changes. -/
def execSeqHoldIdle (s : State) : Result := .next s.quiet

/-- R179. -/
def execSeqHoldDone (s : State) : Result := .next s.quiet

/-- R179, R199: nothing leads out of `FAULT` but reset. -/
def execSeqHoldFault (s : State) : Result := .next s.quiet

/-- R153: `PH = EXPAND`, `T >= 80`. -/
def execSeqInvExpandHigh (s : State) : Result := invariantFault s

/-- R153: `PH = EXPAND`, `T < 16`. -/
def execSeqInvExpandLow (s : State) : Result := invariantFault s

/-- R153: `PH = ROUND`, `T >= 80`. -/
def execSeqInvRoundHigh (s : State) : Result := invariantFault s

/-- R153: reserved phase code 9. -/
def execSeqInvPh9 (s : State) : Result := invariantFault s

/-- R153: reserved phase codes A, B. -/
def execSeqInvPhAB (s : State) : Result := invariantFault s

/-- R153: reserved phase codes C, D. -/
def execSeqInvPhCD (s : State) : Result := invariantFault s

/-- R153: reserved phase code E. -/
def execSeqInvPhE (s : State) : Result := invariantFault s

end Sys2Proof.Machine
end

