-- ==== Sys2Proof/Machine/Dispatch.lean ====
section
/-! DEFINITION. One arm per instruction of the opcode table. -/

namespace Sys2Proof.Machine

def exec (i : Instr) (s : State) : Host.Outcome State Fault Refusal :=
  match i with
  | .cmdNop => Sys2Proof.Machine.execCmdNop s
  | .cmdStart => Sys2Proof.Machine.execCmdStart s
  | .cmdReserved lo => Sys2Proof.Machine.execCmdReserved lo s
  | .beatData b => Sys2Proof.Machine.execBeatData b s
  | .beatEos d => Sys2Proof.Machine.execBeatEos d s
  | .beatErr d => Sys2Proof.Machine.execBeatErr d s
  | .beatReserved d => Sys2Proof.Machine.execBeatReserved d s
  | .seqHoldIdle => Sys2Proof.Machine.execSeqHoldIdle s
  | .padNextExh => Sys2Proof.Machine.execPadNextExh s
  | .padNextOwed => Sys2Proof.Machine.execPadNextOwed s
  | .padNextRead => Sys2Proof.Machine.execPadNextRead s
  | .padFull => Sys2Proof.Machine.execPadFull s
  | .padWait => Sys2Proof.Machine.execPadWait s
  | .padData => Sys2Proof.Machine.execPadData s
  | .padDataOvf => Sys2Proof.Machine.execPadDataOvf s
  | .padEosFit => Sys2Proof.Machine.execPadEosFit s
  | .padEosSpill => Sys2Proof.Machine.execPadEosSpill s
  | .padErr => Sys2Proof.Machine.execPadErr s
  | .ceLoad => Sys2Proof.Machine.execCeLoad s
  | .ceExpand => Sys2Proof.Machine.execCeExpand s
  | .seqInvExpandHigh => Sys2Proof.Machine.execSeqInvExpandHigh s
  | .seqInvExpandLow => Sys2Proof.Machine.execSeqInvExpandLow s
  | .ceInitv => Sys2Proof.Machine.execCeInitv s
  | .ceRoundF0 => Sys2Proof.Machine.execCeRoundF0 s
  | .ceRoundF1 => Sys2Proof.Machine.execCeRoundF1 s
  | .ceRoundF2 => Sys2Proof.Machine.execCeRoundF2 s
  | .ceRoundF3 => Sys2Proof.Machine.execCeRoundF3 s
  | .seqInvRoundHigh => Sys2Proof.Machine.execSeqInvRoundHigh s
  | .ceAcc => Sys2Proof.Machine.execCeAcc s
  | .seqHoldDone => Sys2Proof.Machine.execSeqHoldDone s
  | .seqInvPh9 => Sys2Proof.Machine.execSeqInvPh9 s
  | .seqInvPhAB => Sys2Proof.Machine.execSeqInvPhAB s
  | .seqInvPhCD => Sys2Proof.Machine.execSeqInvPhCD s
  | .seqInvPhE => Sys2Proof.Machine.execSeqInvPhE s
  | .seqHoldFault => Sys2Proof.Machine.execSeqHoldFault s
  | .add32 a b => Sys2Proof.Machine.execAdd32 a b s
  | .rotl32 a n => Sys2Proof.Machine.execRotl32 a n s
  | .and32 a b => Sys2Proof.Machine.execAnd32 a b s
  | .or32 a b => Sys2Proof.Machine.execOr32 a b s
  | .xor32 a b => Sys2Proof.Machine.execXor32 a b s
  | .not32 a => Sys2Proof.Machine.execNot32 a s
  | .primReserved lo => Sys2Proof.Machine.execPrimReserved lo s
  | .fmtHex => Sys2Proof.Machine.execFmtHex s

end Sys2Proof.Machine
end

