-- ==== Sys2Proof/Machine/Env.lean ====
section
/-! DEFINITION. The environment: how the input ports move on at the end of a step (00_scope.md R7, R9;
70_reset_and_hazards.md R226, R230, R233; log 2). An offer that was not accepted stays; a port that is free takes the
next entry of its lane. -/

namespace Sys2Proof.Machine

/-- The source lines take the next entry of the source's lane. -/
def Inputs.loadSrc (i : Inputs) : Inputs :=
  match i.srcLane with
  | [] => { i with srcValid := false }
  | none :: l => { i with srcValid := false, srcLane := l }
  | some w :: l =>
    { i with srcValid := true, srcKind := w.extractLsb' 8 2, srcData := w.extractLsb' 0 8, srcLane := l }

/-- The command lines take the next entry of the host's command lane. -/
def Inputs.loadCmd (i : Inputs) : Inputs :=
  match i.cmdLane with
  | [] => { i with cmdValid := false }
  | none :: l => { i with cmdValid := false, cmdLane := l }
  | some c :: l => { i with cmdValid := true, cmd := c, cmdLane := l }

/-- `rst` takes the next entry of the host's reset lane; it is not asserted when the lane is empty. -/
def Inputs.loadRst (i : Inputs) : Inputs :=
  match i.rstLane with
  | [] => { i with rst := none }
  | r :: l => { i with rst := r, rstLane := l }

/-- R226, R233: after a reset step the host may have withdrawn its command and attached another source. -/
def Inputs.reattach (i : Inputs) : Inputs :=
  match i.rst with
  | none => i
  | some r =>
    let i := match r.cmd with
      | none => i
      | some l => { i with cmdValid := false, cmdLane := l }
    match r.src with
      | none => i
      | some l => { i with srcValid := false, srcLane := l }

/-- R226: a source offer that was not accepted is held; otherwise the port is free. -/
def Inputs.nextSrc (accepted : Bool) (i : Inputs) : Inputs :=
  if i.srcValid && !accepted then i else i.loadSrc

/-- R226: a command offer that was not accepted is held; otherwise the port is free. -/
def Inputs.nextCmd (accepted : Bool) (i : Inputs) : Inputs :=
  if i.cmdValid && !accepted then i else i.loadCmd

/-- The input ports at the end of a step. -/
def Inputs.tick (o : Outputs) (i : Inputs) : Inputs :=
  ((i.reattach.nextSrc o.srcAccept).nextCmd o.cmdAccept).loadRst

/-- The end of a step: the ports move on, a unit run on its own is done (log 8), the free values' counter advances
(log 7). No element of the core's state changes. -/
def envTick (s : State) : State :=
  { s with inp := s.inp.tick s.out, probe := none, freeCtr := s.freeCtr + 1 }

/-- The end of a step that answers a next state. -/
def afterExec : Result → Result
  | .next s => .next (envTick s)
  | .fault f => .fault f
  | .refused r => .refused r

end Sys2Proof.Machine
end

