-- ==== Sys2Proof/Machine/Fetch.lean ====
section
/-! DEFINITION. Which instruction a step runs (00_scope.md R7, 10_state.md R39, 30_encoding.md R86; log 1), and how the
host's check places one (log 22). -/

namespace Sys2Proof.Machine

/-- A command offer that is accepted in this step: `CMD.NOP` and the reserved codes in every phase (R170, R172),
`CMD.START` in `IDLE` and `DONE` (R171). -/
def State.takesCommand (s : State) : Bool :=
  s.inp.cmdValid && (decide (s.inp.cmd ≠ 0b01) || s.acceptsStart)

/-- The encoding the step decodes: a unit to be run on its own (log 8), else the accepted command (R81), else the
dispatch word (R86). -/
def State.nextWord (s : State) : Format × Nat :=
  match s.probe with
  | some (.prim w) => (.prim, w.toNat)
  | some .hex => (.fmt, 0)
  | none => if s.takesCommand then (.cmd, s.inp.cmd.toNat) else (.uop, s.dispatchWord.toNat)

/-- The instruction the step runs. -/
def State.fetch (s : State) : Except Reject Instr := decode s.nextWord.1 s.nextWord.2

/-- No reset, no command, no unit run on its own: the sequencer's own step is next. -/
def State.sequencerNext (s : State) : State :=
  { s with inp := { s.inp with rst := none, cmdValid := false }, probe := none }

/-- The source offers nothing in the coming step. -/
def State.noBeat (s : State) : State := { s with inp := { s.inp with srcValid := false } }

/-- `FILL` at a value of the tested range, kept where it is in it already. -/
def State.fillFrom (lo hi : Nat) (s : State) : State :=
  if lo ≤ s.fill.toNat ∧ s.fill.toNat ≤ hi then s else { s with fill := BitVec.ofNat 7 lo }

/-- `T` at a value of the tested range, kept where it is in it already. -/
def State.tFrom (lo hi : Nat) (s : State) : State :=
  if lo ≤ s.t.toNat ∧ s.t.toNat ≤ hi then s else { s with t := BitVec.ofNat 7 lo }

/-- `COUNT` below its largest value, kept where it is already. -/
def State.countBelowMax (s : State) : State := if s.count = countMax then { s with count := 0 } else s

/-- A phase in which `CMD.START` is accepted, kept where it is already. -/
def State.startPhase (s : State) : State := if s.acceptsStart then s else { s with ph := .idle }

/-- `s` with everything set that makes the next step run `i`, and nothing else (log 22): what the row of the opcode
table tests, the offered command or beat, or the unit to run on its own. -/
def State.withFetch (i : Instr) (s : State) : State :=
  let q := s.sequencerNext
  match i with
  | .cmdNop => q.offerCmd 0b00
  | .cmdStart => q.startPhase.offerCmd 0b01
  | .cmdReserved lo => q.offerCmd (BitVec.ofBool true ++ BitVec.ofBool lo)
  | .beatData b => ({ q with ph := .fill }.fillFrom 0 63).countBelowMax.offerBeat 0b00 b
  | .beatEos d => ({ q with ph := .fill }.fillFrom 0 63).offerBeat 0b01 d
  | .beatErr d => ({ q with ph := .fill }.fillFrom 0 63).offerBeat 0b10 d
  | .beatReserved d => ({ q with ph := .fill }.fillFrom 0 63).offerBeat 0b11 d
  | .seqHoldIdle => { q with ph := .idle }
  | .padNextExh => { q with ph := .req, exh := true }
  | .padNextOwed => { q with ph := .req, exh := false, owed := true }
  | .padNextRead => { q with ph := .req, exh := false, owed := false }
  | .padFull => { q with ph := .fill }.fillFrom 64 64
  | .padWait => ({ q with ph := .fill }.fillFrom 0 63).noBeat
  | .padData => ({ q with ph := .fill }.fillFrom 0 63).countBelowMax.offerBeat 0b00 s.inp.srcData
  | .padDataOvf => ({ q with ph := .fill, count := countMax }.fillFrom 0 63).offerBeat 0b00 s.inp.srcData
  | .padEosFit => ({ q with ph := .fill }.fillFrom 0 55).offerBeat 0b01 s.inp.srcData
  | .padEosSpill => ({ q with ph := .fill }.fillFrom 56 63).offerBeat 0b01 s.inp.srcData
  | .padErr => ({ q with ph := .fill }.fillFrom 0 63).offerBeat 0b10 s.inp.srcData
  | .ceLoad => { q with ph := .load }
  | .ceExpand => { q with ph := .expand }.tFrom 16 79
  | .seqInvExpandHigh => { q with ph := .expand }.tFrom 80 127
  | .seqInvExpandLow => { q with ph := .expand }.tFrom 0 15
  | .ceInitv => { q with ph := .initv }
  | .ceRoundF0 => { q with ph := .round }.tFrom 0 19
  | .ceRoundF1 => { q with ph := .round }.tFrom 20 39
  | .ceRoundF2 => { q with ph := .round }.tFrom 40 59
  | .ceRoundF3 => { q with ph := .round }.tFrom 60 79
  | .seqInvRoundHigh => { q with ph := .round }.tFrom 80 127
  | .ceAcc => { q with ph := .acc }
  | .seqHoldDone => { q with ph := .done }
  | .seqInvPh9 => { q with ph := .rsv9 }
  | .seqInvPhAB => { q with ph := .rsvA }
  | .seqInvPhCD => { q with ph := .rsvC }
  | .seqInvPhE => { q with ph := .rsvE }
  | .seqHoldFault => { q with ph := .fault }
  | .fmtHex => { q with probe := some .hex }
  | .add32 a b => { q with probe := some (.prim (BitVec.ofNat 72 (encode (.add32 a b)).2)) }
  | .rotl32 a n => { q with probe := some (.prim (BitVec.ofNat 72 (encode (.rotl32 a n)).2)) }
  | .and32 a b => { q with probe := some (.prim (BitVec.ofNat 72 (encode (.and32 a b)).2)) }
  | .or32 a b => { q with probe := some (.prim (BitVec.ofNat 72 (encode (.or32 a b)).2)) }
  | .xor32 a b => { q with probe := some (.prim (BitVec.ofNat 72 (encode (.xor32 a b)).2)) }
  | .not32 a => { q with probe := some (.prim (BitVec.ofNat 72 (encode (.not32 a)).2)) }
  | .primReserved lo => { q with probe := some (.prim (BitVec.ofNat 72 (encode (.primReserved lo)).2)) }

/-- A word of the opcode table placed for the next step; a word the decoder refuses places nothing. -/
def placeTableWord (s : State) (nbits w : Nat) : State :=
  match decodeTableWord nbits w with
  | some i => s.withFetch i
  | none => s

end Sys2Proof.Machine
end

