-- ==== Sys2Proof/Machine/Step.lean ====
section
/-! DEFINITION. One step of the machine (00_scope.md R7): a reset, an accepted command, or one micro-operation (which
accepts at most one beat). Reset has priority over everything (60_exceptions.md R196). -/

namespace Sys2Proof.Machine

/-- R7, R39, R196, R220. -/
def step (s : State) : Host.Outcome State Fault Refusal :=
  match s.inp.rst with
  | some _ => .next (envTick (resetStep s))
  | none =>
    match s.fetch with
    | .ok i => afterExec (exec i s)
    | .error why => .refused (.badEncoding why)

/-- `s` with a word of the opcode table placed so that the next step runs it (log 22). -/
def State.withFetchWord (s : State) (nbits w : Nat) : State := placeTableWord s nbits w

end Sys2Proof.Machine
end

