-- ==== Sys2Proof/Machine/Function.lean ====
section
/-! DEFINITION. The core as a function, as the spec writes it out beside the step machine: `Compress`
(42_compress.md R152), the closed form of the block sequence (41_padder.md R122), the digest of a message
(43_host_output.md R173). No step uses these; the claims compare the step machine with them. -/

namespace Sys2Proof.Machine

/-- R144: the round function `f(t, B, C, D)`, for `t` in 0 to 79. -/
def roundFn (t : Nat) : Word → Word → Word → Word :=
  if t < 20 then roundF0 else if t < 40 then roundF1 else if t < 60 then roundF2 else roundF3

/-- R145: the round constant `K(t)`, for `t` in 0 to 79. -/
def roundConst (t : Nat) : Word :=
  if t < 20 then roundK0 else if t < 40 then roundK1 else if t < 60 then roundK2 else roundK3

/-- R71: word `i` of a block given as its bytes in stream order. -/
def blockListWord (blk : List Byte) (i : Nat) : Word :=
  blk.getD (4 * i) 0 ++ blk.getD (4 * i + 1) 0 ++ blk.getD (4 * i + 2) 0 ++ blk.getD (4 * i + 3) 0

/-- R152: the first `16 + n` words of the schedule of a block, oldest first. -/
def scheduleList (blk : List Byte) : Nat → List Word
  | 0 => (List.range 16).map (blockListWord blk)
  | n + 1 =>
    let w := scheduleList blk n
    w ++ [expandWord (w.getD (n + 13) 0) (w.getD (n + 8) 0) (w.getD (n + 2) 0) (w.getD n 0)]

/-- R152: `W[0..79]` of a block. -/
def schedule (blk : List Byte) : List Word := scheduleList blk 64

/-- R152: the working variables after rounds `0 .. n-1` over the schedule `w`. -/
def rounds (w : List Word) (v : Work) : Nat → Work
  | 0 => v
  | n + 1 =>
    let u := rounds w v n
    roundWork u (roundFn n u.b u.c u.d) (w.getD n 0) (roundConst n)

/-- R143: the working variables a block starts with. -/
def workOfDigest (h : Digest) : Work where
  a := h.h0
  b := h.h1
  c := h.h2
  d := h.h3
  e := h.h4

/-- R152: `Compress(h, blk)`. -/
def compress (h : Digest) (blk : List Byte) : Digest := accumulate h (rounds (schedule blk) (workOfDigest h) 80)

/-- The 64 bytes of `BUF` in stream order (R50, R71). -/
def Memory.bytes (m : Memory) : List Byte := (List.range 64).map (Memory.read m)

/-- R122: `LEN(8n)`, 8 bytes big-endian. -/
def lengthBytes (n : Nat) : List Byte := (List.range 8).map (byteBE (n * 8) 8)

/-- R122, the last block or two, for the `r` bytes `tail` left over after the full blocks of an `n`-byte message. -/
def finalBlocks (tail : List Byte) (n : Nat) : List (List Byte) :=
  if tail.length ≤ 55 then
    [tail ++ terminator :: List.replicate (55 - tail.length) 0x00 ++ lengthBytes n]
  else
    [tail ++ terminator :: List.replicate (63 - tail.length) 0x00,
     List.replicate 56 0x00 ++ lengthBytes n]

/-- R122: block `j` of the full blocks, `m[64j .. 64j+63]`. -/
def fullBlock (m : List Byte) (j : Nat) : List Byte := (m.drop (64 * j)).take 64

/-- R122: the block sequence of the message `m`. -/
def blockSequence (m : List Byte) : List (List Byte) :=
  let q := m.length / 64
  (List.range q).map (fullBlock m) ++ finalBlocks (m.drop (64 * q)) m.length

/-- R152, R173: the digest of a message, `Compress(...Compress(IV, b0)..., bk)`. -/
def digestOf (m : List Byte) : Digest := (blockSequence m).foldl compress digestIV

/-- R180: a block as `blk_data` shows it, byte 0 at bits 511:504. -/
def listBits (blk : List Byte) : BitVec 512 :=
  BitVec.ofNat 512 (blk.foldl (fun acc b => acc * 256 + b.toNat) 0)

end Sys2Proof.Machine
end

