-- ==== Sys2Proof/Safety.lean ====
section
/-! DEFINITION. The terms the claims are stated in: the invariants of 10_state.md R38 as a predicate on states, the
registers of the core apart from its ports, a run of several steps with the blocks it shows on the tap. -/

namespace Sys2Proof.Machine

/-- R38, R31, R88(c): what holds of every reachable state, stated of one state so that a step keeps it.
`fill`, `expandT`, `roundT`, `flags`, `causeIff` are R38 (a), (b), (c), (e); `legal` is R88(c); `noInvariant` is
R193; `finished` is R38(f), `reading` its counterpart for a read in progress; `bufWf` is the canonical form. -/
structure Inv (s : State) : Prop where
  fill : s.fill.toNat ≤ 64
  expandT : s.ph = .expand → 16 ≤ s.t.toNat ∧ s.t.toNat ≤ 79
  roundT : s.ph = .round → s.t.toNat ≤ 79
  flags : ¬ (s.owed = true ∧ s.exh = true)
  causeIff : s.cause ≠ .none ↔ s.ph = .fault
  noInvariant : s.cause ≠ .invariant
  legal : s.ph ∈ [Phase.idle, .req, .fill, .load, .expand, .initv, .round, .acc, .done, .fault]
  finished : s.exh = true → s.ph ≠ .fill
  reading : s.owed = true → s.ph ≠ .fill
  bufWf : s.buf.wf = true

/-- No unit is about to be run on its own (log 8): true of every state the hardware itself can be in. -/
def NoProbe (s : State) : Prop := s.probe = none

/-- No reset and no command in this step or later; beats may be offered at any time. -/
def HostSilent (s : State) : Prop :=
  s.probe = none ∧ s.inp.rst = none ∧ s.inp.rstLane = [] ∧ s.inp.cmdValid = false ∧ s.inp.cmdLane = []

/-- Nothing is run on its own, no reset, no command accepted: the coming step is the sequencer's own. -/
def SequencerSteps (s : State) : Prop := s.probe = none ∧ s.inp.rst = none ∧ s.takesCommand = false

/-- `CMD.START` is being offered (R81). -/
def StartOffered (s : State) : Prop := s.inp.cmdValid = true ∧ s.inp.cmd = 0b01

/-- A beat of kind `k` is being offered (R82). -/
def BeatOffered (k : BitVec 2) (s : State) : Prop := s.inp.srcValid = true ∧ s.inp.srcKind = k

/-- The coming step runs the micro-operation `i` and writes the phase `p` (a row of the table R39). -/
def RunsTo (s : State) (i : Instr) (p : Phase) : Prop := s.fetch = .ok i ∧ ∃ t, step s = .next t ∧ t.ph = p

/-- No element of the core's state (R20) changes. -/
def SameCore (s t : State) : Prop :=
  t.ph = s.ph ∧ t.cause = s.cause ∧ t.count = s.count ∧ t.fill = s.fill ∧ t.owed = s.owed ∧ t.exh = s.exh ∧
  t.t = s.t ∧ t.h = s.h ∧ t.v = s.v ∧ t.w = s.w ∧ t.buf = s.buf

/-- The source's offer, valid bit, kind and data, is the same in `t`. -/
def SameSourceOffer (s t : State) : Prop :=
  t.inp.srcValid = s.inp.srcValid ∧ t.inp.srcKind = s.inp.srcKind ∧ t.inp.srcData = s.inp.srcData

/-- R76: byte `k` of LEN, `L[63-8k : 56-8k]` with `L = zext_64(COUNT) * 8`. -/
def lenByte (count : BitVec 61) (k : Nat) : Byte := (count.setWidth 64 * 8).extractLsb' (56 - 8 * k) 8

/-- R24, R113: in phase `FILL` every byte from `FILL` on is still 0x00 from the clear. -/
def ZeroBeyondFill (s : State) : Prop := s.ph = .fill → ∀ a, s.fill.toNat ≤ a → s.buf.read a = 0x00

/-- The beats the source has still to deliver, the one being offered first (gaps left out). -/
def Inputs.pending (i : Inputs) : List (BitVec 10) :=
  (if i.srcValid then [i.srcKind ++ i.srcData] else []) ++ i.srcLane.filterMap id

/-- R82: the beat `DATA b`. -/
def dataBeat (b : Byte) : BitVec 10 := (0b00 : BitVec 2) ++ b

/-- R37, R178: two states that agree on everything a later step can still read. What is not compared in a phase is
written again before it is read: `H` in `IDLE`; the padding state in `IDLE` and `DONE`; `FILL` outside `FILL`; `BUF` outside
`FILL` and `LOAD`; `T` outside `EXPAND` and `ROUND`; `W` where it has not been written for this block; `A..E` outside
`ROUND` and `ACC`. -/
structure AgreeLive (s t : State) : Prop where
  ph : s.ph = t.ph
  cause : s.cause = t.cause
  inp : s.inp = t.inp
  out : s.out = t.out
  probe : s.probe = none ∧ t.probe = none
  h : s.ph ≠ .idle → s.h = t.h
  padding : s.ph ≠ .idle → s.ph ≠ .done → s.count = t.count ∧ s.owed = t.owed ∧ s.exh = t.exh
  fill : s.ph = .fill → s.fill = t.fill
  buf : s.ph = .fill ∨ s.ph = .load → s.buf = t.buf
  index : s.ph = .expand ∨ s.ph = .round → s.t = t.t
  wBelow : s.ph = .expand → ∀ (i : Nat) (hi : i < 80), i < s.t.toNat → s.w[i] = t.w[i]
  w : s.ph = .initv ∨ s.ph = .round → s.w = t.w
  v : s.ph = .round ∨ s.ph = .acc → s.v = t.v

/-- `k` steps, with the blocks shown on the tap (R180), oldest first. -/
def runTap : Nat → State → Option (State × List (BitVec 512))
  | 0, s => some (s, [])
  | k + 1, s =>
    match step s with
    | .next s' => (runTap k s').map fun r => (r.1, s'.out.blk.toList ++ r.2)
    | _ => none

end Sys2Proof.Machine
end

