-- ==== Sys2Proof/Certificates/Slice0/Obligations.lean ====
section
/-! DEFINITION. The statements about the model, for the provers. Each docstring names the rule of spec/ it formalises. -/

open Sys2Proof Sys2Proof.Machine

/-! ## Encodings -/

/-- Words written out from the spec's encodings: CMD (R81), BEAT (R82, R88(b)), DW (R86, the samples of
95_test_vectors.md 2.9), PRIM (R87). -/
def Obligations.ListedWordsDecode : Prop :=
  decode .cmd 0b00 = .ok .cmdNop ∧ decode .cmd 0b01 = .ok .cmdStart ∧ decode .cmd 0b11 = .ok (.cmdReserved true) ∧
  decode .beat 0b00_01100001 = .ok (.beatData 0x61) ∧ decode .beat 0x100 = .ok (.beatEos 0) ∧
  decode .beat 0x200 = .ok (.beatErr 0) ∧ decode .beat 0x3a5 = .ok (.beatReserved 0xa5) ∧
  decode .uop 0x0001 = .ok .seqHoldIdle ∧ decode .uop 0x1818 = .ok .padNextExh ∧
  decode .uop 0x2021 = .ok .padData ∧ decode .uop 0x213A = .ok .padDataOvf ∧ decode .uop 0x2361 = .ok .padFull ∧
  decode .uop 0x4818 = .ok .ceExpand ∧ decode .uop 0x6010 = .ok .ceRoundF2 ∧ decode .uop 0x6004 = .ok .seqInvRoundHigh ∧
  decode .prim 0b001 = .ok (.rotl32 0 0) ∧ decode .prim (0b101 + 5 * 2 ^ 8) = .ok (.not32 5) ∧
  decode .prim (0b001 + 32 * 2 ^ 40) = .error .rotAmount ∧ decode .cmd 4 = .error .width

/-- Decoding an encoded well-formed instruction gives it back, every operand at every value (R81, R82, R86, R87). -/
def Obligations.DecodeOfEncode : Prop :=
  ∀ i : Instr, wellFormed i = true → decode (encode i).1 (encode i).2 = .ok i

/-- R86: the rows of the opcode map are pairwise exclusive and cover every value of DW, and the decoder gives the
micro-operation of the one row that matches (`DW and mask = match`). -/
def Obligations.OpcodeMapExclusiveAndTotal : Prop :=
  ∀ w : BitVec 16, ∃ r ∈ uopRows, w &&& r.2.1 = r.1 ∧ decodeUop w = r.2.2 ∧
    ∀ r' ∈ uopRows, w &&& r'.2.1 = r'.1 → r' = r

/-- R86: every field of the dispatch word, bit by bit, as a function of the state and of the offered beat. -/
def Obligations.DispatchWordBits : Prop :=
  ∀ s : State,
    s.dispatchWord.extractLsb' 12 4 = s.ph.code ∧
    s.dispatchWord.getLsbD 11 = s.exh ∧
    s.dispatchWord.getLsbD 10 = s.owed ∧
    s.dispatchWord.getLsbD 9 = decide (s.fill.toNat = 64) ∧
    s.dispatchWord.getLsbD 8 = decide (s.fill.toNat ≥ 56) ∧
    s.dispatchWord.extractLsb' 6 2 = (if s.inp.srcValid then s.inp.srcKind else 0b00) ∧
    s.dispatchWord.getLsbD 5 = s.inp.srcValid ∧
    (s.dispatchWord.extractLsb' 3 2).toNat = (if s.t.toNat ≤ 79 then s.t.toNat / 20 else 0) ∧
    s.dispatchWord.getLsbD 2 = decide (s.t.toNat ≥ 80) ∧
    s.dispatchWord.getLsbD 1 = decide (s.count.toNat = 2 ^ 61 - 1) ∧
    s.dispatchWord.getLsbD 0 = decide (s.t.toNat < 16)

/-- Placing an instruction for the next step makes the next step fetch it; a beat is fetched as the micro-operation
that consumes it, with the same outcome (the model's own, log 22; table notes of BEAT rows). -/
def Obligations.PlacedInstructionIsFetched : Prop :=
  ∀ (s : State) (i : Instr), wellFormed i = true →
    (s.withFetch i).inp.rst = none ∧
    ∃ j, (s.withFetch i).fetch = .ok j ∧ exec j (s.withFetch i) = exec i (s.withFetch i) ∧
      ((∀ b, i ≠ .beatData b ∧ i ≠ .beatEos b ∧ i ≠ .beatErr b ∧ i ≠ .beatReserved b) → j = i)

/-! ## The step -/

/-- R7, R39, R81, R86: a step without reset runs the instruction the decoder reads from what is next: the accepted
command, else the dispatch word; and it ends by moving the input ports on (`envTick`). -/
def Obligations.StepRunsTheDecodedInstruction : Prop :=
  ∀ s : State, s.inp.rst = none →
    (∀ i, s.fetch = .ok i →
      (∀ t, exec i s = .next t → step s = .next (envTick t)) ∧
      (∀ f, exec i s = .fault f → step s = .fault f) ∧
      (∀ r, exec i s = .refused r → step s = .refused r)) ∧
    (s.probe = none → s.takesCommand = true → s.fetch = .ok (decodeCmd s.inp.cmd)) ∧
    (s.probe = none → s.takesCommand = false → s.fetch = .ok (decodeUop s.dispatchWord)) ∧
    (∀ t, SameCore t (envTick t))

/-- R39: the transition table, every row: the micro-operation a phase and condition select and the phase it writes. -/
def Obligations.TransitionTable : Prop :=
  ∀ s : State, s.probe = none → s.fill.toNat ≤ 64 →
    (s.inp.rst ≠ none → ∃ t, step s = .next t ∧ t.ph = .idle) ∧
    (s.inp.rst = none → s.ph = .idle ∨ s.ph = .done → StartOffered s → RunsTo s .cmdStart .req) ∧
    (s.inp.rst = none → s.ph = .idle ∨ s.ph = .done → ¬ StartOffered s → ∃ t, step s = .next t ∧ SameCore s t) ∧
    (s.inp.rst = none → s.ph = .fault → ∃ t, step s = .next t ∧ SameCore s t) ∧
    (SequencerSteps s →
      (s.ph = .req → s.exh = true → RunsTo s .padNextExh .done) ∧
      (s.ph = .req → s.exh = false → s.owed = true → RunsTo s .padNextOwed .load) ∧
      (s.ph = .req → s.exh = false → s.owed = false → RunsTo s .padNextRead .fill) ∧
      (s.ph = .fill → s.fill.toNat = 64 → RunsTo s .padFull .load) ∧
      (s.ph = .fill → s.fill.toNat < 64 →
        (BeatOffered 0b00 s → s.count.toNat < 2 ^ 61 - 1 → RunsTo s .padData .fill) ∧
        (BeatOffered 0b00 s → s.count.toNat = 2 ^ 61 - 1 → RunsTo s .padDataOvf .fault) ∧
        (BeatOffered 0b01 s → s.fill.toNat ≤ 55 → RunsTo s .padEosFit .load) ∧
        (BeatOffered 0b01 s → 56 ≤ s.fill.toNat → RunsTo s .padEosSpill .load) ∧
        (BeatOffered 0b10 s ∨ BeatOffered 0b11 s → RunsTo s .padErr .fault) ∧
        (s.inp.srcValid = false → RunsTo s .padWait .fill)) ∧
      (s.ph = .load → RunsTo s .ceLoad .expand) ∧
      (s.ph = .expand → 16 ≤ s.t.toNat → s.t.toNat ≤ 78 → RunsTo s .ceExpand .expand) ∧
      (s.ph = .expand → s.t.toNat = 79 → RunsTo s .ceExpand .initv) ∧
      (s.ph = .initv → RunsTo s .ceInitv .round) ∧
      (s.ph = .round →
        (s.t.toNat ≤ 19 → RunsTo s .ceRoundF0 .round) ∧
        (20 ≤ s.t.toNat → s.t.toNat ≤ 39 → RunsTo s .ceRoundF1 .round) ∧
        (40 ≤ s.t.toNat → s.t.toNat ≤ 59 → RunsTo s .ceRoundF2 .round) ∧
        (60 ≤ s.t.toNat → s.t.toNat ≤ 78 → RunsTo s .ceRoundF3 .round) ∧
        (s.t.toNat = 79 → RunsTo s .ceRoundF3 .acc)) ∧
      (s.ph = .expand → 80 ≤ s.t.toNat → RunsTo s .seqInvExpandHigh .fault) ∧
      (s.ph = .expand → s.t.toNat < 16 → RunsTo s .seqInvExpandLow .fault) ∧
      (s.ph = .round → 80 ≤ s.t.toNat → RunsTo s .seqInvRoundHigh .fault) ∧
      (s.ph = .acc → RunsTo s .ceAcc .req))

/-! ## Reset -/

/-- R36, R221: the reset state's control registers and status. (`H`, `A..E`, `W`, `BUF` hold values of the model's
choice, log 4; nothing is said of them here.) -/
def Obligations.ResetStateValues : Prop :=
  State.reset.ph = .idle ∧ State.reset.cause = .none ∧ State.reset.count = 0 ∧ State.reset.fill = 0 ∧
  State.reset.owed = false ∧ State.reset.exh = false ∧ State.reset.t = 0 ∧ State.reset.status = 0x00 ∧
  State.reset.done = false ∧ State.reset.faulted = false ∧ State.reset.busy = false

/-- R220, R196: a step in which `rst` is asserted is a reset step whatever the phase and whatever is offered: the
control registers are cleared, nothing is accepted or emitted. What `H`, `A..E`, `W`, `BUF` hold afterwards is a free value
(R222; the model's form, log 5). -/
def Obligations.ResetStepClearsControlState : Prop :=
  ∀ s : State, s.inp.rst ≠ none → ∃ t, step s = .next t ∧
    t.ph = .idle ∧ t.cause = .none ∧ t.count = 0 ∧ t.fill = 0 ∧ t.owed = false ∧ t.exh = false ∧ t.t = 0 ∧
    t.status = 0x00 ∧ t.out.cmdAccept = false ∧ t.out.srcAccept = false ∧ t.out.blk = none

/-! ## Invariants -/

/-- R38: the invariants hold in the state after reset. -/
def Obligations.ResetSatisfiesInvariants : Prop := Inv State.reset

/-- R38: every step keeps the invariants (and the canonical form of BUF). -/
def Obligations.StepKeepsInvariants : Prop :=
  ∀ s t : State, Inv s → step s = .next t → Inv t

/-- R39, R86: in a state that meets the invariants a step always answers a next state. -/
def Obligations.LegalStateAlwaysSteps : Prop :=
  ∀ s : State, Inv s → NoProbe s → ∃ t, step s = .next t

/-- R38, R153: a state that meets the invariants never runs SEQ.INVARIANT. -/
def Obligations.InvariantFaultUnreachable : Prop :=
  ∀ (s : State) (i : Instr), Inv s → NoProbe s → s.fetch = .ok i →
    i ∉ [Instr.seqInvExpandHigh, .seqInvExpandLow, .seqInvRoundHigh, .seqInvPh9, .seqInvPhAB, .seqInvPhCD, .seqInvPhE]

/-- R24, R113, R114: in phase FILL the bytes from index FILL on are zero, kept by every step. -/
def Obligations.StepKeepsZeroBeyondFill : Prop :=
  ∀ s t : State, Inv s → ZeroBeyondFill s → step s = .next t → ZeroBeyondFill t

/-- R20, R21, R51: the "written by" column of the state table, for every instruction at once: an element that differs
after an instruction was written by one of the instructions the table names for it. -/
def Obligations.WrittenOnlyByTheListedInstructions : Prop :=
  ∀ (i : Instr) (s t : State), exec i s = .next t →
    (t.h ≠ s.h → i ∈ [Instr.cmdStart, .ceAcc]) ∧
    (t.v ≠ s.v → i ∈ [Instr.ceInitv, .ceRoundF0, .ceRoundF1, .ceRoundF2, .ceRoundF3]) ∧
    (t.w ≠ s.w → i ∈ [Instr.ceLoad, .ceExpand]) ∧
    (t.buf ≠ s.buf → i ∈ [Instr.padNextOwed, .padNextRead, .padData, .padEosFit, .padEosSpill] ∨
      ∃ b, i = .beatData b ∨ i = .beatEos b) ∧
    (t.fill ≠ s.fill → i ∈ [Instr.padNextRead, .padData] ∨ ∃ b, i = .beatData b) ∧
    (t.count ≠ s.count → i ∈ [Instr.cmdStart, .padData] ∨ ∃ b, i = .beatData b) ∧
    (t.owed ≠ s.owed → i ∈ [Instr.cmdStart, .padEosSpill, .padNextOwed] ∨ ∃ b, i = .beatEos b) ∧
    (t.exh ≠ s.exh → i ∈ [Instr.cmdStart, .padEosFit, .padNextOwed] ∨ ∃ b, i = .beatEos b) ∧
    (t.t ≠ s.t → i ∈ [Instr.ceLoad, .ceExpand, .ceInitv, .ceRoundF0, .ceRoundF1, .ceRoundF2, .ceRoundF3]) ∧
    (t.cause ≠ s.cause → t.ph = .fault) ∧
    t.probe = s.probe ∧ t.freeCtr = s.freeCtr ∧
    t.inp.rst = s.inp.rst ∧ t.inp.rstLane = s.inp.rstLane ∧ t.inp.cmdLane = s.inp.cmdLane ∧
    t.inp.srcLane = s.inp.srcLane

/-! ## Host commands -/

/-- R170, R172: CMD.NOP and the reserved commands are accepted in every phase and change no state. -/
def Obligations.NopAndReservedCommandsChangeNothing : Prop :=
  ∀ s : State,
    exec .cmdNop s = .next { s with
      inp := { s.inp with cmdValid := true, cmd := 0b00 }, out := { Outputs.quiet with cmdAccept := true } } ∧
    exec (.cmdReserved false) s = .next { s with
      inp := { s.inp with cmdValid := true, cmd := 0b10 }, out := { Outputs.quiet with cmdAccept := true } } ∧
    exec (.cmdReserved true) s = .next { s with
      inp := { s.inp with cmdValid := true, cmd := 0b11 }, out := { Outputs.quiet with cmdAccept := true } } ∧
    (s.probe = none → s.inp.rst = none → s.inp.cmdValid = true → s.inp.cmd ≠ 0b01 →
      ∃ t, step s = .next t ∧ SameCore s t ∧ t.out.cmdAccept = true ∧ t.out.srcAccept = false ∧ t.out.blk = none)

/-- R171, R156: CMD.START in IDLE or DONE loads the initial digest state and a fresh padding state; nothing else. -/
def Obligations.StartBeginsAComputation : Prop :=
  ∀ s : State, s.ph = .idle ∨ s.ph = .done →
    exec .cmdStart s = .next { s with
      h := { h0 := 0x67452301, h1 := 0xEFCDAB89, h2 := 0x98BADCFE, h3 := 0x10325476, h4 := 0xC3D2E1F0 }
      count := 0, owed := false, exh := false, ph := .req
      inp := { s.inp with cmdValid := true, cmd := 0b01 }, out := { Outputs.quiet with cmdAccept := true } }

/-- R171, R227: in every other phase CMD.START is not accepted and stays offered, also over the step the sequencer
takes meanwhile. -/
def Obligations.StartIsHeldOutsideIdleAndDone : Prop :=
  ∀ s : State, s.ph ≠ .idle → s.ph ≠ .done →
    exec .cmdStart s = .next { s with inp := { s.inp with cmdValid := true, cmd := 0b01 }, out := Outputs.quiet } ∧
    (s.probe = none → s.inp.rst = none → StartOffered s → s.fetch = .ok (decodeUop s.dispatchWord) ∧
      ∀ t, step s = .next t → t.out.cmdAccept = false ∧ StartOffered t)

/-! ## The byte source -/

/-- R230, R226, R57: a beat is accepted only in phase FILL with FILL below 64 while it is offered; one that is not
accepted stays offered unchanged (reset apart). -/
def Obligations.BeatsAcceptedOnlyInFillAndNeverDropped : Prop :=
  ∀ s t : State, step s = .next t →
    (Inv s → t.out.srcAccept = true → s.ph = .fill ∧ s.fill.toNat < 64 ∧ s.inp.srcValid = true ∧
      t.inp.pending = s.inp.pending.tail) ∧
    (s.inp.rst = none → t.out.srcAccept = false → s.inp.srcValid = true → SameSourceOffer s t) ∧
    (s.inp.rst = none → t.out.srcAccept = false → t.inp.pending = s.inp.pending)

/-- R124: once the last block has been emitted, or the terminator without the length, no beat is accepted. -/
def Obligations.NoBeatAfterEndOfStream : Prop :=
  ∀ s t : State, Inv s → s.exh = true ∨ s.owed = true → step s = .next t → t.out.srcAccept = false

/-- R82, R88(b), R114, R116 to R118, R125: a beat offered in phase FILL with FILL below 64 has the effect of the
micro-operation the dispatch word selects while it is offered. -/
def Obligations.BeatsAreConsumedByTheSelectedMicroOperation : Prop :=
  ∀ s : State, s.ph = .fill → s.fill.toNat < 64 → s.inp.srcValid = true →
    exec (decodeBeat (s.inp.srcKind ++ s.inp.srcData)) s = exec (decodeUop s.dispatchWord) s

/-- R82, R230: a beat offered in any other state stays pending; no element of the core's state changes. -/
def Obligations.BeatsStayPendingElsewhere : Prop :=
  ∀ (s : State) (b : Byte), s.ph ≠ .fill ∨ 64 ≤ s.fill.toNat →
    exec (.beatData b) s = .next { s with
      inp := { s.inp with srcValid := true, srcKind := 0b00, srcData := b }, out := Outputs.quiet } ∧
    exec (.beatEos b) s = .next { s with
      inp := { s.inp with srcValid := true, srcKind := 0b01, srcData := b }, out := Outputs.quiet } ∧
    exec (.beatErr b) s = .next { s with
      inp := { s.inp with srcValid := true, srcKind := 0b10, srcData := b }, out := Outputs.quiet } ∧
    exec (.beatReserved b) s = .next { s with
      inp := { s.inp with srcValid := true, srcKind := 0b11, srcData := b }, out := Outputs.quiet }

/-- R82, R114, R116, R117: BEAT.DATA and BEAT.EOS offered where beats are accepted: the byte, or the terminator (with
the length where it fits), goes into BUF at index FILL, every other byte stays. -/
def Obligations.DataAndEosBeatsFillTheBuffer : Prop :=
  ∀ (s : State) (b : Byte), s.ph = .fill → s.fill.toNat < 64 → s.buf.wf = true →
    (s.count.toNat < 2 ^ 61 - 1 → ∃ m, exec (.beatData b) s = .next { s with
        buf := m, fill := s.fill + 1, count := s.count + 1
        inp := { s.inp with srcValid := true, srcKind := 0b00, srcData := b }
        out := { Outputs.quiet with srcAccept := true } } ∧
      ∀ a, m.read a = if a = s.fill.toNat then b else s.buf.read a) ∧
    (s.fill.toNat ≤ 55 → ∃ m, exec (.beatEos b) s = .next { s with
        buf := m, exh := true, ph := .load
        inp := { s.inp with srcValid := true, srcKind := 0b01, srcData := b }
        out := { Outputs.quiet with srcAccept := true, blk := some (blockBits m) } } ∧
      ∀ a, m.read a = if a = s.fill.toNat then 0x80 else if 56 ≤ a ∧ a < 64 then lenByte s.count (a - 56)
        else s.buf.read a) ∧
    (56 ≤ s.fill.toNat → ∃ m, exec (.beatEos b) s = .next { s with
        buf := m, owed := true, ph := .load
        inp := { s.inp with srcValid := true, srcKind := 0b01, srcData := b }
        out := { Outputs.quiet with srcAccept := true, blk := some (blockBits m) } } ∧
      ∀ a, m.read a = if a = s.fill.toNat then 0x80 else s.buf.read a)

/-- R118, R88(b), R125, R197: an ERR beat, a beat of the reserved kind, and the DATA beat that would overflow the length
enter the fault: the beat is consumed, PH and CAUSE are written, nothing else. -/
def Obligations.FaultingBeats : Prop :=
  ∀ (s : State) (b : Byte), s.ph = .fill → s.fill.toNat < 64 →
    exec (.beatErr b) s = .next { s with
      ph := .fault, cause := .srcError, inp := { s.inp with srcValid := true, srcKind := 0b10, srcData := b }
      out := { Outputs.quiet with srcAccept := true } } ∧
    exec (.beatReserved b) s = .next { s with
      ph := .fault, cause := .srcError, inp := { s.inp with srcValid := true, srcKind := 0b11, srcData := b }
      out := { Outputs.quiet with srcAccept := true } } ∧
    (s.count.toNat = 2 ^ 61 - 1 → exec (.beatData b) s = .next { s with
      ph := .fault, cause := .lenOverflow, inp := { s.inp with srcValid := true, srcKind := 0b00, srcData := b }
      out := { Outputs.quiet with srcAccept := true } })

/-! ## The Block Padder -/

/-- R111: PAD.NEXT.EXH writes PH and nothing else; EXH is tested before OWED. -/
def Obligations.PadNextExhEndsTheSequence : Prop :=
  ∀ s : State, exec .padNextExh s = .next { s with ph := .done, out := Outputs.quiet } ∧
    (SequencerSteps s → s.ph = .req → s.exh = true → s.fetch = .ok .padNextExh)

/-- R112, R75, R76: the length-only block. -/
def Obligations.PadNextOwedEmitsTheLengthBlock : Prop :=
  ∀ s : State, ∃ m, exec .padNextOwed s = .next { s with
      buf := m, exh := true, owed := false, ph := .load, out := { Outputs.quiet with blk := some (blockBits m) } } ∧
    (∀ a, a < 56 → m.read a = 0x00) ∧ (∀ k, k < 8 → m.read (56 + k) = lenByte s.count k)

/-- R113: begin a read into a cleared buffer, no beat accepted; in phase REQ with neither flag set it is what runs. -/
def Obligations.PadNextReadClearsTheBuffer : Prop :=
  ∀ s : State, (∃ m, exec .padNextRead s = .next { s with buf := m, fill := 0, ph := .fill, out := Outputs.quiet } ∧
      ∀ a, a < 64 → m.read a = 0x00) ∧
    (SequencerSteps s → s.ph = .req → s.exh = false → s.owed = false → s.fetch = .ok .padNextRead)

/-- R115, R119: PAD.FULL emits the buffer as it is and accepts no beat; PAD.WAIT changes no state. -/
def Obligations.PadFullEmitsAndPadWaitHolds : Prop :=
  ∀ s : State,
    exec .padFull s = .next { s with ph := .load, out := { Outputs.quiet with blk := some (blockBits s.buf) } } ∧
    exec .padWait s = .next { s with out := Outputs.quiet }

/-- R114: the offered byte goes to BUF[FILL], every other byte stays; FILL and COUNT add one. -/
def Obligations.PadDataStoresOneByte : Prop :=
  ∀ s : State, s.fill.toNat < 64 → s.count.toNat < 2 ^ 61 - 1 → s.buf.wf = true →
    ∃ m f c, exec .padData s = .next { s with
        buf := m, fill := f, count := c, ph := .fill, out := { Outputs.quiet with srcAccept := true } } ∧
      f.toNat = s.fill.toNat + 1 ∧ c.toNat = s.count.toNat + 1 ∧ m.wf = true ∧
      ∀ a, m.read a = if a = s.fill.toNat then s.inp.srcData else s.buf.read a

/-- R116, R76: terminator at BUF[FILL], LEN at BUF[56..63], every other byte stays; EXH set; the block emitted. -/
def Obligations.PadEosFitAppendsTerminatorAndLength : Prop :=
  ∀ s : State, s.fill.toNat ≤ 55 → s.buf.wf = true →
    ∃ m, exec .padEosFit s = .next { s with
        buf := m, exh := true, ph := .load, out := { Outputs.quiet with srcAccept := true, blk := some (blockBits m) } } ∧
      ∀ a, m.read a = if a = s.fill.toNat then 0x80 else if 56 ≤ a ∧ a < 64 then lenByte s.count (a - 56)
        else s.buf.read a

/-- R117: terminator at BUF[FILL], every other byte stays; OWED set; the block emitted. -/
def Obligations.PadEosSpillAppendsTerminator : Prop :=
  ∀ s : State, 56 ≤ s.fill.toNat → s.fill.toNat ≤ 63 → s.buf.wf = true →
    ∃ m, exec .padEosSpill s = .next { s with
        buf := m, owed := true, ph := .load, out := { Outputs.quiet with srcAccept := true, blk := some (blockBits m) } } ∧
      ∀ a, m.read a = if a = s.fill.toNat then 0x80 else s.buf.read a

/-- R73, R74: the bytes of the last block that carries message bytes, terminator, zero fill and, where it fits, LEN. -/
def Obligations.FinalBlockBytes : Prop :=
  ∀ s t : State, Inv s → ZeroBeyondFill s → SequencerSteps s → s.ph = .fill → s.fill.toNat < 64 →
    BeatOffered 0b01 s → step s = .next t →
    (∀ a, a < s.fill.toNat → t.buf.read a = s.buf.read a) ∧ t.buf.read s.fill.toNat = 0x80 ∧
    (s.fill.toNat ≤ 55 → (∀ a, s.fill.toNat < a → a < 56 → t.buf.read a = 0x00) ∧
      ∀ k, k < 8 → t.buf.read (56 + k) = lenByte s.count k) ∧
    (56 ≤ s.fill.toNat → ∀ a, s.fill.toNat < a → a < 64 → t.buf.read a = 0x00)

/-- R180, R120: a block is shown on the tap exactly in the steps that emit, and it is BUF after that step's writes,
byte j at bits 511-8j down to 504-8j. -/
def Obligations.BlockTapShowsEmittedBlocks : Prop :=
  ∀ s t : State, step s = .next t →
    (t.blkValid = true ↔ s.inp.rst = none ∧
      ∃ i ∈ [Instr.padFull, .padEosFit, .padEosSpill, .padNextOwed], s.fetch = .ok i) ∧
    (t.blkValid = true → ∀ j, j < 64 → t.blkData.extractLsb' (504 - 8 * j) 8 = t.buf.read j)

/-- R53, R52: MemRead and MemWrite: the bytes written are the number's, most significant first, no other byte changes,
and reading the same place gives the number back. -/
def Obligations.MemWriteThenMemRead : Prop :=
  ∀ (m : Memory) (a n v : Nat), m.wf = true → a + n ≤ 64 → n = 1 ∨ n = 4 ∨ n = 8 → v < 2 ^ (8 * n) →
    ∃ m', memWrite m a n v = some m' ∧ m'.wf = true ∧ memRead m' a n = some v ∧
      (∀ k, k < n → (m'.read (a + k)).toNat = v / 2 ^ (8 * (n - 1 - k)) % 256) ∧
      (∀ b, b < a ∨ a + n ≤ b → m'.read b = m.read b)

/-! ## The Compression Engine -/

/-- R141, R52: in phase LOAD, W[0..15] big-endian from BUF in one step, the other words and BUF kept. -/
def Obligations.CeLoadReadsBigEndianWords : Prop :=
  ∀ s : State, (∃ w : Vector Word 80,
    exec .ceLoad s = .next { s with w := w, t := 16, ph := .expand, out := Outputs.quiet } ∧
    (∀ i (_ : i < 16), w[i].toNat = (s.buf.read (4 * i)).toNat * 2 ^ 24 + (s.buf.read (4 * i + 1)).toNat * 2 ^ 16 +
      (s.buf.read (4 * i + 2)).toNat * 2 ^ 8 + (s.buf.read (4 * i + 3)).toNat) ∧
    (∀ i (_ : 16 ≤ i) (_ : i < 80), w[i] = s.w[i])) ∧
    (SequencerSteps s → s.ph = .load → s.fetch = .ok .ceLoad)

/-- R142, R153: one schedule word, for T in 16 to 79; outside that range the INVARIANT fault. -/
def Obligations.CeExpandComputesOneScheduleWord : Prop :=
  ∀ s : State,
    (∀ h : 16 ≤ s.t.toNat ∧ s.t.toNat ≤ 79, ∃ w : Vector Word 80,
      exec .ceExpand s = .next { s with
        w := w, t := if s.t.toNat = 79 then s.t else s.t + 1
        ph := if s.t.toNat = 79 then .initv else .expand, out := Outputs.quiet } ∧
      w[s.t.toNat] = (s.w[s.t.toNat - 3] ^^^ s.w[s.t.toNat - 8] ^^^ s.w[s.t.toNat - 14] ^^^ s.w[s.t.toNat - 16]).rotateLeft 1 ∧
      ∀ i (_ : i < 80), i ≠ s.t.toNat → w[i] = s.w[i]) ∧
    (s.t.toNat < 16 ∨ 80 ≤ s.t.toNat →
      exec .ceExpand s = .next { s with ph := .fault, cause := .invariant, out := Outputs.quiet })

/-- R143: in phase INITV, the working variables from the digest state, T to 0; H is not changed. -/
def Obligations.CeInitvCopiesTheDigestState : Prop :=
  ∀ s : State, exec .ceInitv s = .next { s with
      v := { a := s.h.h0, b := s.h.h1, c := s.h.h2, d := s.h.h3, e := s.h.h4 }
      t := 0, ph := .round, out := Outputs.quiet } ∧
    (SequencerSteps s → s.ph = .initv → s.fetch = .ok .ceInitv)

/-- R150 with R146 to R149: the round datapath in each quadrant, all five assignments reading the old values. -/
def Obligations.RoundDatapath : Prop :=
  ∀ (s : State) (_ : s.t.toNat ≤ 79),
    let round (f k : Word) : Result := .next { s with
      v := { a := s.v.a.rotateLeft 5 + f + s.v.e + s.w[s.t.toNat] + k, b := s.v.a, c := s.v.b.rotateLeft 30
             d := s.v.c, e := s.v.d }
      t := if s.t.toNat = 79 then s.t else s.t + 1
      ph := if s.t.toNat = 79 then .acc else .round, out := Outputs.quiet }
    (s.t.toNat ≤ 19 → exec .ceRoundF0 s = round ((s.v.b &&& s.v.c) ||| (~~~s.v.b &&& s.v.d)) 0x5A827999) ∧
    (20 ≤ s.t.toNat → s.t.toNat ≤ 39 → exec .ceRoundF1 s = round (s.v.b ^^^ s.v.c ^^^ s.v.d) 0x6ED9EBA1) ∧
    (40 ≤ s.t.toNat → s.t.toNat ≤ 59 → exec .ceRoundF2 s =
      round ((s.v.b &&& s.v.c) ||| (s.v.b &&& s.v.d) ||| (s.v.c &&& s.v.d)) 0x8F1BBCDC) ∧
    (60 ≤ s.t.toNat → exec .ceRoundF3 s = round (s.v.b ^^^ s.v.c ^^^ s.v.d) 0xCA62C1D6)

/-- R144: the round function bit by bit. -/
def Obligations.RoundFunctionByBit : Prop :=
  ∀ (t : Nat) (b c d : Word) (i : Nat), t ≤ 79 → i < 32 →
    (roundFn t b c d).getLsbD i =
      if t ≤ 19 then (if b.getLsbD i then c.getLsbD i else d.getLsbD i)
      else if t ≤ 39 ∨ 60 ≤ t then xor (xor (b.getLsbD i) (c.getLsbD i)) (d.getLsbD i)
      else decide (2 ≤ (b.getLsbD i).toNat + (c.getLsbD i).toNat + (d.getLsbD i).toNat)

/-- R145: the round constants by quadrant. -/
def Obligations.RoundConstantsByQuadrant : Prop :=
  ∀ t : Nat, (t ≤ 19 → roundConst t = 0x5A827999) ∧ (20 ≤ t → t ≤ 39 → roundConst t = 0x6ED9EBA1) ∧
    (40 ≤ t → t ≤ 59 → roundConst t = 0x8F1BBCDC) ∧ (60 ≤ t → t ≤ 79 → roundConst t = 0xCA62C1D6)

/-- R151: in phase ACC, each word of the digest state plus its working variable, modulo 2^32. -/
def Obligations.CeAccAddsTheWorkingVariables : Prop :=
  ∀ s : State, (SequencerSteps s → s.ph = .acc → s.fetch = .ok .ceAcc) ∧ ∃ h : Digest, exec .ceAcc s = .next { s with h := h, ph := .req, out := Outputs.quiet } ∧
    h.h0.toNat = (s.h.h0.toNat + s.v.a.toNat) % 2 ^ 32 ∧ h.h1.toNat = (s.h.h1.toNat + s.v.b.toNat) % 2 ^ 32 ∧
    h.h2.toNat = (s.h.h2.toNat + s.v.c.toNat) % 2 ^ 32 ∧ h.h3.toNat = (s.h.h3.toNat + s.v.d.toNat) % 2 ^ 32 ∧
    h.h4.toNat = (s.h.h4.toNat + s.v.e.toNat) % 2 ^ 32

/-! ## Faults -/

/-- R118, R125, R153, R197: the micro-operations that raise a fault write PH and CAUSE and nothing else; those of the
padder consume the beat. -/
def Obligations.FaultEntryWritesOnlyPhaseAndCause : Prop :=
  ∀ s : State,
    exec .padErr s = .next { s with ph := .fault, cause := .srcError, out := { Outputs.quiet with srcAccept := true } } ∧
    exec .padDataOvf s = .next { s with
      ph := .fault, cause := .lenOverflow, out := { Outputs.quiet with srcAccept := true } } ∧
    ∀ i ∈ [Instr.seqInvExpandHigh, .seqInvExpandLow, .seqInvRoundHigh, .seqInvPh9, .seqInvPhAB, .seqInvPhCD, .seqInvPhE],
      exec i s = .next { s with ph := .fault, cause := .invariant, out := Outputs.quiet }

/-- R190 to R193: a step enters FAULT only by the three causes, each from its own place. -/
def Obligations.FaultsOnlyByTheThreeCauses : Prop :=
  ∀ s t : State, Inv s → NoProbe s → step s = .next t → s.ph ≠ .fault → t.ph = .fault →
    s.ph = .fill ∧ s.fill.toNat < 64 ∧ t.out.srcAccept = true ∧
    ((t.cause = .srcError ∧ (BeatOffered 0b10 s ∨ BeatOffered 0b11 s)) ∨
     (t.cause = .lenOverflow ∧ BeatOffered 0b00 s ∧ s.count.toNat = 2 ^ 61 - 1))

/-- R199, R200: in FAULT the sequencer holds, START is not accepted, beats are not accepted, and only reset leads out. -/
def Obligations.FaultIsAbsorbingUntilReset : Prop :=
  ∀ s : State, s.ph = .fault → s.probe = none →
    (s.inp.rst = none → ∃ t, step s = .next t ∧ SameCore s t ∧ t.out.srcAccept = false ∧ t.out.blk = none ∧
      (StartOffered s → t.out.cmdAccept = false ∧ StartOffered t) ∧ (s.inp.srcValid = true → SameSourceOffer s t)) ∧
    (s.inp.rst ≠ none → ∃ t, step s = .next t ∧ t.ph = .idle ∧ t.cause = .none)

/-- R179: the holds change no state. -/
def Obligations.HoldsChangeNothing : Prop :=
  ∀ s : State, ∀ i ∈ [Instr.seqHoldIdle, .seqHoldDone, .seqHoldFault],
    exec i s = .next { s with out := Outputs.quiet }

/-! ## The Word unit -/

/-- R101, R108: ADD32 is the exact sum modulo 2^32, commutative and associative; no state, no flag, no fault.
That a primitive is run on its own and its result shown in `out.word` is the model's choice (log 8). -/
def Obligations.Add32WrapsModulo2To32 : Prop :=
  ∀ (a b c : Word) (s : State), ∃ r : Word,
    exec (.add32 a b) s = .next { s with out := { Outputs.quiet with word := some r } } ∧
    r.toNat = (a.toNat + b.toNat) % 2 ^ 32 ∧ add32 a b = add32 b a ∧ add32 (add32 a b) c = add32 a (add32 b c)

/-- R102: ROTL32 moves bit i to bit (i + n) mod 32, for amounts below 32; an amount of 32 or more is refused (V13).
Run on its own by the model's choice (log 8). -/
def Obligations.Rotl32RotatesBelow32AndRefusesAbove : Prop :=
  ∀ (a n : Word) (s : State),
    (n.toNat < 32 → ∃ r : Word,
      exec (.rotl32 a n) s = .next { s with out := { Outputs.quiet with word := some r } } ∧
      ∀ i, i < 32 → r.getLsbD ((i + n.toNat) % 32) = a.getLsbD i) ∧
    (32 ≤ n.toNat → exec (.rotl32 a n) s = .refused .rotAmount)

/-- R103 to R106: the bitwise primitives, bit for bit; no state, no flag, no fault. Run on their own by the
model's choice (log 8). -/
def Obligations.BitwisePrimitives : Prop :=
  ∀ (a b : Word) (s : State), ∃ rAnd rOr rXor rNot : Word,
    exec (.and32 a b) s = .next { s with out := { Outputs.quiet with word := some rAnd } } ∧
    exec (.or32 a b) s = .next { s with out := { Outputs.quiet with word := some rOr } } ∧
    exec (.xor32 a b) s = .next { s with out := { Outputs.quiet with word := some rXor } } ∧
    exec (.not32 a) s = .next { s with out := { Outputs.quiet with word := some rNot } } ∧
    ∀ i, i < 32 → rAnd.getLsbD i = (a.getLsbD i && b.getLsbD i) ∧ rOr.getLsbD i = (a.getLsbD i || b.getLsbD i) ∧
      rXor.getLsbD i = (a.getLsbD i != b.getLsbD i) ∧ rNot.getLsbD i = !a.getLsbD i

/-- R88(e): the reserved function selects have no behaviour; they are refused by name. -/
def Obligations.ReservedPrimitivesAreRefused : Prop :=
  ∀ (lo : Bool) (s : State), exec (.primReserved lo) s = .refused .reservedPrim

/-! ## Read-out -/

/-- R176, R80, R177: FMT.HEX writes no state; while the read-out is defined (busy or DONE) character c shows its
nibble of H as a lowercase hexadecimal digit; in IDLE and FAULT the string is the free value (the model's form, log 6).
The byte codes, 0x30 + v and 0x61 + (v - 10), are ASCII, which is PRESUMED and unsafe (log 21): R80 marks the character
code as general knowledge (G2), and the rules' source names none. The string is shown in `out.hex` (the model's choice,
log 8). -/
def Obligations.HexFormatterShowsTheDigest : Prop :=
  ∀ s : State, ∃ x : BitVec 320,
    exec .fmtHex s = .next { s with out := { Outputs.quiet with hex := some x } } ∧
    (s.done = true ∨ s.busy = true → ∀ c, c < 40 →
      let v := ((s.h.get (c / 8)).extractLsb' (28 - 4 * (c % 8)) 4).toNat
      (x.extractLsb' (312 - 8 * c) 8).toNat = if v ≤ 9 then 0x30 + v else 0x61 + (v - 10))

/-- R174, R78, R79, R175: the digest port word by word, H[0] at the top, and the digest byte by byte. -/
def Obligations.DigestPortWordsAndBytes : Prop :=
  ∀ s : State,
    (s.done = true ∨ s.busy = true →
      s.digestPort.extractLsb' 128 32 = s.h.h0 ∧ s.digestPort.extractLsb' 96 32 = s.h.h1 ∧
      s.digestPort.extractLsb' 64 32 = s.h.h2 ∧ s.digestPort.extractLsb' 32 32 = s.h.h3 ∧
      s.digestPort.extractLsb' 0 32 = s.h.h4) ∧
    s.h.bytes.length = 20 ∧
    ∀ i k, i < 5 → k < 4 → s.h.bytes[4 * i + k]? = some ((s.h.get i).extractLsb' (24 - 8 * k) 8)

/-- R85, R32, R33, R195: the fields of STATUS and the level outputs, which exclude one another. -/
def Obligations.StatusAndLevelOutputs : Prop :=
  ∀ s : State,
    s.status.extractLsb' 0 4 = s.ph.code ∧ s.status.getLsbD 4 = s.done ∧ s.status.getLsbD 5 = s.faulted ∧
    s.status.extractLsb' 6 2 = s.cause.code ∧
    (s.done = true ↔ s.ph = .done) ∧ (s.faulted = true ↔ s.ph = .fault) ∧
    (s.busy = true ↔ s.ph ∈ [Phase.req, .fill, .load, .expand, .initv, .round, .acc]) ∧
    (Inv s → s.ph = .done → s.status = 0x18) ∧
    (s.ph = .fault → s.cause = .srcError → s.status = 0x6F) ∧
    (s.ph = .fault → s.cause = .lenOverflow → s.status = 0xAF) ∧
    (s.ph = .fault → s.cause = .invariant → s.status = 0xEF)

/-! ## The core as a function -/

/-- R152, R155: from phase LOAD the 147 steps of the engine fold the block in BUF into the digest state by Compress,
emit nothing and leave the padder's state alone. -/
def Obligations.EngineComputesCompress : Prop :=
  ∀ s : State, HostSilent s → s.ph = .load →
    ∃ t, runTap 147 s = some (t, []) ∧ t.ph = .req ∧ t.h = compress s.h s.buf.bytes ∧
      t.buf = s.buf ∧ t.count = s.count ∧ t.fill = s.fill ∧ t.owed = s.owed ∧ t.exh = s.exh ∧ t.cause = s.cause

/-- R173, R122, R126: a computation over a message of at most 2^61 - 1 bytes, delivered byte by byte with any gaps and
ended by EOS, reaches DONE with the digest of the message, and the tap has shown exactly the block sequence. -/
def Obligations.DigestOfAMessage : Prop :=
  ∀ (s : State) (m : List Byte) (ignored : Byte) (rest : List (BitVec 10)),
    s.probe = none → s.inp.rst = none → s.inp.rstLane = [] → StartOffered s → s.inp.cmdLane = [] →
    s.ph = .idle ∨ s.ph = .done → m.length ≤ 2 ^ 61 - 1 →
    s.inp.pending = m.map dataBeat ++ ((0b01 : BitVec 2) ++ ignored) :: rest →
    ∃ k t, runTap k s = some (t, (blockSequence m).map listBits) ∧ t.ph = .done ∧ t.h = digestOf m ∧
      t.inp.pending = rest

/-- R173, R191: if an ERR beat (or one of the reserved kind) comes before the end of the stream, the core reaches
FAULT with cause SRC_ERROR. -/
def Obligations.SourceErrorEndsInFault : Prop :=
  ∀ (s : State) (m : List Byte) (lo : Bool) (ignored : Byte) (rest : List (BitVec 10)),
    s.probe = none → s.inp.rst = none → s.inp.rstLane = [] → StartOffered s → s.inp.cmdLane = [] →
    s.ph = .idle ∨ s.ph = .done → m.length ≤ 2 ^ 61 - 1 →
    s.inp.pending = m.map dataBeat ++ ((BitVec.ofBool true ++ BitVec.ofBool lo : BitVec 2) ++ ignored) :: rest →
    ∃ k t bs, runTap k s = some (t, bs) ∧ t.ph = .fault ∧ t.cause = .srcError ∧ t.inp.pending = rest

/-- R37, R178: no step reads a leftover: two states that agree on everything still to be read take the same step, show
the same on the per-step ports, and agree again. -/
def Obligations.NoLeftoverIsRead : Prop :=
  ∀ s t s' : State, AgreeLive s t → step s = .next s' → ∃ t', step t = .next t' ∧ AgreeLive s' t'
end

