-- ==== Sys2Proof/Laws/Memory.lean ====
section
/-! SUPPORT. The laws of the byte memory `BUF`: reads after writes, and the canonical form is kept by every operation
(20_memory.md R50, R53; log 17). -/

namespace Sys2Proof.Machine

@[simp] theorem Memory.read_nil (a : Nat) : Memory.read [] a = Memory.unlisted := rfl

@[simp] theorem Memory.read_cleared (a : Nat) : Memory.cleared.read a = Memory.unlisted := rfl

theorem Memory.read_of_wfFrom {m : Memory} {lo a : Nat} (h : Memory.wfFrom lo m = true) (ha : a < lo) :
    m.read a = Memory.unlisted := by
  induction m generalizing lo with
  | nil => rfl
  | cons c m ih =>
    obtain ⟨k, x⟩ := c
    simp only [Memory.wfFrom, Bool.and_eq_true, decide_eq_true_eq] at h
    have hak : a ≠ k := by omega
    simp only [Memory.read, if_neg hak]
    exact ih h.2 (by omega)

theorem Memory.wfFrom_mono {m : Memory} {lo lo' : Nat} (h : Memory.wfFrom lo m = true) (hl : lo' ≤ lo) :
    Memory.wfFrom lo' m = true := by
  cases m with
  | nil => rfl
  | cons c m =>
    obtain ⟨k, x⟩ := c
    simp only [Memory.wfFrom, Bool.and_eq_true, decide_eq_true_eq] at h ⊢
    exact ⟨⟨⟨by omega, h.1.1.2⟩, h.1.2⟩, h.2⟩

theorem Memory.wfFrom_cons {m : Memory} {lo a : Nat} {x : Byte} (h : Memory.wfFrom (a + 1) m = true) (hl : lo ≤ a)
    (ha : a < 64) : Memory.wfFrom lo (Memory.cons a x m) = true := by
  unfold Memory.cons
  split
  · exact Memory.wfFrom_mono h (by omega)
  · rename_i hx
    simp only [Memory.wfFrom, Bool.and_eq_true, decide_eq_true_eq]
    exact ⟨⟨⟨hl, ha⟩, hx⟩, h⟩

/-- A write keeps the canonical form. -/
theorem Memory.wfFrom_write {m : Memory} {lo a : Nat} (x : Byte) (h : Memory.wfFrom lo m = true) (hl : lo ≤ a)
    (ha : a < 64) : Memory.wfFrom lo (m.write a x) = true := by
  induction m generalizing lo with
  | nil => exact Memory.wfFrom_cons (m := []) rfl hl ha
  | cons c m ih =>
    obtain ⟨k, y⟩ := c
    have h' := h
    simp only [Memory.wfFrom, Bool.and_eq_true, decide_eq_true_eq] at h
    unfold Memory.write
    split
    · refine Memory.wfFrom_cons ?_ hl ha
      simp only [Memory.wfFrom, Bool.and_eq_true, decide_eq_true_eq]
      exact ⟨⟨⟨by omega, h.1.1.2⟩, h.1.2⟩, h.2⟩
    · split
      · rename_i hk; subst hk
        exact Memory.wfFrom_cons h.2 hl ha
      · simp only [Memory.wfFrom, Bool.and_eq_true, decide_eq_true_eq]
        exact ⟨⟨h.1.1, h.1.2⟩, ih h.2 (by omega)⟩

theorem Memory.wf_write {m : Memory} {a : Nat} (x : Byte) (h : m.wf = true) (ha : a < 64) : (m.write a x).wf = true :=
  Memory.wfFrom_write x h (Nat.zero_le a) ha

theorem Memory.wf_cleared : Memory.cleared.wf = true := rfl

theorem Memory.read_cons (a : Nat) (x : Byte) (m : Memory) (ha : Memory.wfFrom (a + 1) m = true) (b : Nat) :
    (Memory.cons a x m).read b = if b = a then x else m.read b := by
  unfold Memory.cons
  split
  · rename_i hx
    split
    · rename_i hb; rw [hb, Memory.read_of_wfFrom ha (by omega), hx]
    · rfl
  · rfl

/-- A write seen by any read: the byte written at its own address, every other byte as before. -/
theorem Memory.read_writeFrom {m : Memory} {lo a : Nat} (x : Byte) (h : Memory.wfFrom lo m = true) (b : Nat) :
    (m.write a x).read b = if b = a then x else m.read b := by
  induction m generalizing lo with
  | nil => exact Memory.read_cons a x [] rfl b
  | cons c m ih =>
    obtain ⟨k, y⟩ := c
    have h' := h
    simp only [Memory.wfFrom, Bool.and_eq_true, decide_eq_true_eq] at h
    unfold Memory.write
    split
    · rename_i hk
      apply Memory.read_cons
      simp only [Memory.wfFrom, Bool.and_eq_true, decide_eq_true_eq]
      exact ⟨⟨⟨by omega, h.1.1.2⟩, h.1.2⟩, h.2⟩
    · split
      · rename_i hk; subst hk
        rw [Memory.read_cons _ _ _ h.2]
        simp only [Memory.read]
        split <;> rfl
      · rename_i hak
        simp only [Memory.read]
        split
        · rename_i hb; rw [if_neg (by omega)]
        · rw [ih h.2]

theorem Memory.read_write {m : Memory} (x : Byte) (h : m.wf = true) (a b : Nat) :
    (m.write a x).read b = if b = a then x else m.read b := Memory.read_writeFrom x h b

/-- Two memories in canonical form that read the same everywhere are the same list. -/
theorem Memory.ext_of_wfFrom {m n : Memory} {lo : Nat} (hm : Memory.wfFrom lo m = true) (hn : Memory.wfFrom lo n = true)
    (h : ∀ a, m.read a = n.read a) : m = n := by
  induction m generalizing n lo with
  | nil =>
    cases n with
    | nil => rfl
    | cons c n =>
      obtain ⟨k, x⟩ := c
      simp only [Memory.wfFrom, Bool.and_eq_true, decide_eq_true_eq] at hn
      have := h k
      simp [Memory.read] at this
      exact absurd this.symm hn.1.2
  | cons c m ih =>
    obtain ⟨k, x⟩ := c
    simp only [Memory.wfFrom, Bool.and_eq_true, decide_eq_true_eq] at hm
    cases n with
    | nil =>
      have := h k
      simp [Memory.read] at this
      exact absurd this hm.1.2
    | cons c n =>
      obtain ⟨l, y⟩ := c
      simp only [Memory.wfFrom, Bool.and_eq_true, decide_eq_true_eq] at hn
      have hkl : k = l := by
        rcases Nat.lt_trichotomy k l with hlt | heq | hgt
        · have := h k
          simp only [Memory.read, if_pos, if_neg (show k ≠ l by omega)] at this
          rw [Memory.read_of_wfFrom hn.2 (by omega)] at this
          exact absurd this hm.1.2
        · exact heq
        · have := h l
          simp only [Memory.read, if_pos, if_neg (show l ≠ k by omega)] at this
          rw [Memory.read_of_wfFrom hm.2 (by omega)] at this
          exact absurd this.symm hn.1.2
      subst hkl
      have hxy : x = y := by simpa [Memory.read] using h k
      subst hxy
      congr 1
      apply ih hm.2 hn.2
      intro a
      by_cases hak : a = k
      · subst hak
        rw [Memory.read_of_wfFrom hm.2 (by omega), Memory.read_of_wfFrom hn.2 (by omega)]
      · simpa [Memory.read, hak] using h a

theorem Memory.ext_of_wf {m n : Memory} (hm : m.wf = true) (hn : n.wf = true) (h : ∀ a, m.read a = n.read a) : m = n :=
  Memory.ext_of_wfFrom hm hn h

/-! ## Wider accesses -/

theorem Memory.writeBE_succ_aux (m : Memory) (a n v : Nat) (k : Nat) :
    (List.range (k + 1)).foldl (fun m k => Memory.write m (a + k) (byteBE v n k)) m =
      Memory.write ((List.range k).foldl (fun m k => Memory.write m (a + k) (byteBE v n k)) m) (a + k) (byteBE v n k) := by
  simp [List.range_succ, List.foldl_append]

theorem Memory.wf_and_read_writeBE_aux {m : Memory} (h : m.wf = true) (a n v : Nat) (k : Nat) (hk : a + k ≤ 64) :
    Memory.wf ((List.range k).foldl (fun m k => Memory.write m (a + k) (byteBE v n k)) m) = true ∧
      ∀ b, Memory.read ((List.range k).foldl (fun m k => Memory.write m (a + k) (byteBE v n k)) m) b =
        if a ≤ b ∧ b < a + k then byteBE v n (b - a) else m.read b := by
  induction k with
  | zero => simp [h]
  | succ k ih =>
    obtain ⟨hw, hr⟩ := ih (by omega)
    rw [Memory.writeBE_succ_aux]
    refine ⟨Memory.wf_write _ hw (by omega), fun b => ?_⟩
    rw [Memory.read_write _ hw, hr]
    by_cases hb : b = a + k
    · subst hb; rw [if_pos rfl, if_pos (by omega)]; congr; omega
    · rw [if_neg hb]
      by_cases hc : a ≤ b ∧ b < a + k
      · rw [if_pos hc, if_pos (by omega)]
      · rw [if_neg hc, if_neg (by omega)]

/-- R53: a wide write keeps the canonical form. -/
theorem Memory.wf_writeBE {m : Memory} (h : m.wf = true) (a n v : Nat) (hn : a + n ≤ 64) : (m.writeBE a n v).wf = true :=
  (Memory.wf_and_read_writeBE_aux h a n v n hn).1

/-- R53: what each byte reads as after a wide write. -/
theorem Memory.read_writeBE {m : Memory} (h : m.wf = true) (a n v : Nat) (hn : a + n ≤ 64) (b : Nat) :
    (m.writeBE a n v).read b = if a ≤ b ∧ b < a + n then byteBE v n (b - a) else m.read b :=
  (Memory.wf_and_read_writeBE_aux h a n v n hn).2 b

/-- R53: `MemRead` of one byte. -/
theorem Memory.readBE_one (m : Memory) (a : Nat) : m.readBE a 1 = (m.read a).toNat := by
  simp [Memory.readBE, List.range_succ]

/-- R52: `MemRead` of a word, most significant byte first. -/
theorem Memory.readBE_four (m : Memory) (a : Nat) :
    m.readBE a 4 = (m.read a).toNat * 2 ^ 24 + (m.read (a + 1)).toNat * 2 ^ 16 + (m.read (a + 2)).toNat * 2 ^ 8 +
      (m.read (a + 3)).toNat := by
  simp only [Memory.readBE, List.range_succ, List.range_zero, List.nil_append, List.foldl_append, List.foldl_cons,
    List.foldl_nil, Nat.add_zero]
  omega

theorem byteBE_one (x : Byte) : byteBE x.toNat 1 0 = x := by
  simp [byteBE]

/-- R53: `MemWrite` of one byte inside `BUF`. -/
theorem memWrite_one (m : Memory) (a : Nat) (x : Byte) (ha : a < 64) : memWrite m a 1 x.toNat = some (m.write a x) := by
  have hb : accessInBounds a 1 = true := by simp [accessInBounds]; omega
  simp [memWrite, hb, Memory.writeBE, List.range_succ, byteBE_one]

/-- R53: no access outside `BUF`. -/
theorem memWrite_one_outside (m : Memory) (a v : Nat) (ha : 64 ≤ a) : memWrite m a 1 v = none := by
  have hb : accessInBounds a 1 = false := by simp [accessInBounds]; omega
  simp [memWrite, hb]

theorem wf_writeLength {m : Memory} (h : m.wf = true) (c : BitVec 61) : (writeLength m c).wf = true :=
  Memory.wf_writeBE h 56 8 _ (by decide)

/-- R76: the length field and nothing else is written. -/
theorem read_writeLength {m : Memory} (h : m.wf = true) (c : BitVec 61) (b : Nat) :
    (writeLength m c).read b = if 56 ≤ b ∧ b < 64 then byteBE (bitLength c) 8 (b - 56) else m.read b :=
  Memory.read_writeBE h 56 8 _ (by decide) b

/-- The memory after a reset step is in canonical form, whatever the free values are. -/
theorem wf_freeBuf (n : Nat) : (freeBuf n).wf = true := by
  have : ∀ k ≤ 64, Memory.wf ((List.range k).foldl (fun m k => Memory.write m k (Config.freeByte n k)) Memory.cleared) = true := by
    intro k
    induction k with
    | zero => intro _; rfl
    | succ k ih =>
      intro hk
      rw [List.range_succ, List.foldl_append]
      exact Memory.wf_write _ (ih (by omega)) (by omega)
  unfold freeBuf
  exact this 64 (by decide)

/-- Reading outside `BUF` finds nothing listed. -/
theorem Memory.read_outside {m : Memory} {lo a : Nat} (h : Memory.wfFrom lo m = true) (ha : 64 ≤ a) :
    m.read a = Memory.unlisted := by
  induction m generalizing lo with
  | nil => rfl
  | cons c m ih =>
    obtain ⟨k, x⟩ := c
    simp only [Memory.wfFrom, Bool.and_eq_true, decide_eq_true_eq] at h
    have hk : k < 64 := h.1.1.2
    simp only [Memory.read, if_neg (show a ≠ k by omega)]
    exact ih h.2

/-- R141: `W[0..15]` from `BUF`, the other words kept. -/
theorem getElem_loadSchedule (m : Memory) (w : Vector Word 80) (i : Nat) (hi : i < 80) :
    (loadSchedule m w)[i] = if i < 16 then blockWord m i else w[i] := by
  simp [loadSchedule]

end Sys2Proof.Machine
end

