-- ==== Sys2Proof/Laws/Bytes.lean ====
section
/-! SUPPORT. Byte strings read big-endian (20_memory.md R52; 30_encoding.md R76, R80; 43_host_output.md R180). -/

namespace Sys2Proof.Machine

/-- R52: a byte list read big-endian, as `MemRead`, the block tap and the formatter do. -/
def beValue (l : List Byte) : Nat := l.foldl (fun acc x => acc * 256 + x.toNat) 0
theorem foldl_beValue (l : List Byte) (z : Nat) : l.foldl (fun acc x => acc * 256 + x.toNat) z = z * 256 ^ l.length + beValue l := by
  induction l generalizing z with
  | nil => simp [beValue]
  | cons x l ih =>
    simp only [List.foldl_cons, List.length_cons, beValue]
    rw [ih, ih (0 * 256 + x.toNat)]
    ring
theorem beValue_lt (l : List Byte) : beValue l < 256 ^ l.length := by
  induction l with
  | nil => simp [beValue]
  | cons x l ih =>
    simp only [beValue, List.foldl_cons, List.length_cons]
    rw [foldl_beValue]
    have := x.isLt
    have : (0 * 256 + x.toNat) * 256 ^ l.length ≤ 255 * 256 ^ l.length := Nat.mul_le_mul_right _ (by omega)
    rw [pow_succ]; omega
/-- The base-256 digits of a big-endian number are its bytes. -/
theorem beValue_digit (l : List Byte) (j : Nat) (hj : j < l.length) : beValue l / 256 ^ (l.length - 1 - j) % 256 = (l[j]).toNat := by
  have hsplit : l = l.take j ++ l[j] :: l.drop (j + 1) := by simp
  have hlen : (l.drop (j+1)).length = l.length - 1 - j := by simp; omega
  have : beValue l = (beValue (l.take j) * 256 + l[j].toNat) * 256 ^ (l.length - 1 - j) + beValue (l.drop (j + 1)) := by
    conv_lhs => rw [hsplit]
    rw [beValue, List.foldl_append, List.foldl_cons, foldl_beValue, hlen]; rfl
  have hlt := beValue_lt (l.drop (j+1))
  rw [hlen] at hlt
  rw [this, Nat.mul_comm, Nat.mul_add_div (by positivity), Nat.div_eq_of_lt hlt]
  have := (l[j]).isLt
  omega
/-- Byte `j` of a list shown big-endian on a port of `8n` bits. -/
theorem extractLsb'_beValue (n : Nat) (l : List Byte) (hl : l.length = n) (j : Nat) (hj : j < n) :
    ((BitVec.ofNat (8 * n) (beValue l)).extractLsb' (8 * n - 8 - 8 * j) 8) = l[j]'(by omega) := by
  subst hl
  apply BitVec.eq_of_toNat_eq
  have h := beValue_digit l j (by omega)
  have hlt := beValue_lt l
  rw [BitVec.extractLsb'_toNat, BitVec.toNat_ofNat, Nat.mod_eq_of_lt (a := beValue l) (by rw [Nat.pow_mul]; exact hlt), Nat.shiftRight_eq_div_pow, ← h]
  rw [show 8 * l.length - 8 - 8 * j = 8 * (l.length - 1 - j) by omega, Nat.pow_mul]

/-- R76: the length operand's bytes, as `MemWrite` and as the spec's formula give them. -/
theorem byteBE_bitLength (c : BitVec 61) (k : Nat) (hk : k < 8) : byteBE (bitLength c) 8 k = lenByte c k := by
  unfold lenByte byteBE bitLength
  apply BitVec.eq_of_toNat_eq
  have := c.isLt
  have hm : (c.setWidth 64 * 8).toNat = c.toNat * 8 := by
    rw [BitVec.toNat_mul, BitVec.toNat_setWidth, show (8 : BitVec 64).toNat = 8 from rfl, Nat.mod_eq_of_lt (b := 2^64) (by omega), Nat.mod_eq_of_lt (by omega)]
  simp only [BitVec.extractLsb'_toNat, BitVec.toNat_ofNat, hm, Nat.shiftRight_eq_div_pow]
  interval_cases k <;> norm_num

end Sys2Proof.Machine
end

