-- ==== Sys2Proof/Laws/Decode.lean ====
section
/-! SUPPORT. The dispatch word packed and read back (30_encoding.md R86), and what the step decodes (log 1). -/

namespace Sys2Proof

@[simp] theorem Phase.ofCode_code (p : Phase) : Phase.ofCode p.code = p := by cases p <;> rfl

theorem Phase.code_ofCode (c : BitVec 4) : (Phase.ofCode c).code = c := by revert c; decide

/-- R86: every bit of a packed dispatch word. -/
theorem Dw.getLsbD_pack (d : Dw) (i : Nat) :
    d.pack.getLsbD i =
      if i = 0 then d.tlo else if i = 1 then d.cntmax else if i = 2 then d.tov else if i < 5 then d.q.getLsbD (i - 3)
      else if i = 5 then d.bv else if i < 8 then d.bk.getLsbD (i - 6) else if i = 8 then d.hi else if i = 9 then d.full
      else if i = 10 then d.owed else if i = 11 then d.exh else d.ph.code.getLsbD (i - 12) := by
  change BitVec.getLsbD (w := 4 + 1 + 1 + 1 + 1 + 2 + 1 + 2 + 1 + 1 + 1)
    (d.ph.code ++ BitVec.ofBool d.exh ++ BitVec.ofBool d.owed ++ BitVec.ofBool d.full ++ BitVec.ofBool d.hi
      ++ d.bk ++ BitVec.ofBool d.bv ++ d.q ++ BitVec.ofBool d.tov ++ BitVec.ofBool d.cntmax ++ BitVec.ofBool d.tlo) i = _
  simp only [BitVec.getLsbD_append, Nat.sub_sub]
  by_cases h : i < 12
  · interval_cases i <;> simp
  · repeat rw [if_neg (by omega)]

/-- R86: bits 15:12 are the phase code. -/
theorem Dw.pack_ph (d : Dw) : d.pack.extractLsb' 12 4 = d.ph.code := by
  apply BitVec.eq_of_getLsbD_eq
  intro i hi
  rw [BitVec.getLsbD_extractLsb', Dw.getLsbD_pack]
  interval_cases i <;> simp

/-- R86: bits 7:6 are the beat kind. -/
theorem Dw.pack_bk (d : Dw) : d.pack.extractLsb' 6 2 = d.bk := by
  apply BitVec.eq_of_getLsbD_eq
  intro i hi
  rw [BitVec.getLsbD_extractLsb', Dw.getLsbD_pack]
  interval_cases i <;> simp

/-- R86: bits 4:3 are the quadrant. -/
theorem Dw.pack_q (d : Dw) : d.pack.extractLsb' 3 2 = d.q := by
  apply BitVec.eq_of_getLsbD_eq
  intro i hi
  rw [BitVec.getLsbD_extractLsb', Dw.getLsbD_pack]
  interval_cases i <;> simp

/-- R86: reading the fields of a packed dispatch word gives the fields back. -/
@[simp] theorem Dw.unpack_pack (d : Dw) : Dw.unpack d.pack = d := by
  simp only [Dw.unpack, Dw.pack_ph, Dw.pack_bk, Dw.pack_q, Phase.ofCode_code, Dw.getLsbD_pack]
  simp

namespace Machine

/-- R86: the dispatch word selects by the fields of the state. -/
theorem decodeUop_dispatchWord (s : State) : decodeUop s.dispatchWord = selectUop s.dw := by
  simp [decodeUop, State.dispatchWord]

theorem decode_uop (w : BitVec 16) : decode .uop w.toNat = .ok (decodeUop w) := by
  have : w.toNat < 2 ^ 16 := w.isLt
  simp only [decode, Format.width, this, if_true, BitVec.ofNat_toNat, BitVec.setWidth_eq]

theorem decode_cmd (w : BitVec 2) : decode .cmd w.toNat = .ok (decodeCmd w) := by
  have : w.toNat < 2 ^ 2 := w.isLt
  simp only [decode, Format.width, this, if_true, BitVec.ofNat_toNat, BitVec.setWidth_eq]

/-- The sequencer's own step: no unit run on its own, no command accepted. -/
theorem fetch_sequencer {s : State} (hp : s.probe = none) (hc : s.takesCommand = false) :
    s.fetch = .ok (selectUop s.dw) := by
  simp only [State.fetch, State.nextWord, hp, hc, Bool.false_eq_true, if_false]
  rw [decode_uop, decodeUop_dispatchWord]

/-- An accepted command. -/
theorem fetch_command {s : State} (hp : s.probe = none) (hc : s.takesCommand = true) :
    s.fetch = .ok (decodeCmd s.inp.cmd) := by
  simp only [State.fetch, State.nextWord, hp, hc, if_true]
  exact decode_cmd _

/-- Without a unit to be run on its own, the step decodes either the accepted command or the dispatch word. -/
theorem fetch_cases {s : State} (hp : s.probe = none) :
    (s.takesCommand = true ∧ s.fetch = .ok (decodeCmd s.inp.cmd)) ∨
      (s.takesCommand = false ∧ s.fetch = .ok (selectUop s.dw)) := by
  cases hc : s.takesCommand with
  | true => exact .inl ⟨rfl, fetch_command hp hc⟩
  | false => exact .inr ⟨rfl, fetch_sequencer hp hc⟩

end Machine

end Sys2Proof
end

