-- ==== Sys2Proof/Laws/State.lean ====
section
/-! SUPPORT. One lemma per field of State for each named update, true by rfl, so that no proof unfolds an update. -/

namespace Sys2Proof.Machine

/-! ## The outputs of a quiet step -/

@[simp] theorem State.quiet_ph (s : State) : s.quiet.ph = s.ph := rfl
@[simp] theorem State.quiet_cause (s : State) : s.quiet.cause = s.cause := rfl
@[simp] theorem State.quiet_count (s : State) : s.quiet.count = s.count := rfl
@[simp] theorem State.quiet_fill (s : State) : s.quiet.fill = s.fill := rfl
@[simp] theorem State.quiet_owed (s : State) : s.quiet.owed = s.owed := rfl
@[simp] theorem State.quiet_exh (s : State) : s.quiet.exh = s.exh := rfl
@[simp] theorem State.quiet_t (s : State) : s.quiet.t = s.t := rfl
@[simp] theorem State.quiet_h (s : State) : s.quiet.h = s.h := rfl
@[simp] theorem State.quiet_v (s : State) : s.quiet.v = s.v := rfl
@[simp] theorem State.quiet_w (s : State) : s.quiet.w = s.w := rfl
@[simp] theorem State.quiet_buf (s : State) : s.quiet.buf = s.buf := rfl
@[simp] theorem State.quiet_inp (s : State) : s.quiet.inp = s.inp := rfl
@[simp] theorem State.quiet_out (s : State) : s.quiet.out = Outputs.quiet := rfl
@[simp] theorem State.quiet_probe (s : State) : s.quiet.probe = s.probe := rfl
@[simp] theorem State.quiet_freeCtr (s : State) : s.quiet.freeCtr = s.freeCtr := rfl

/-! ## `accept beat` -/

@[simp] theorem State.acceptBeat_ph (s : State) : s.acceptBeat.ph = s.ph := rfl
@[simp] theorem State.acceptBeat_cause (s : State) : s.acceptBeat.cause = s.cause := rfl
@[simp] theorem State.acceptBeat_count (s : State) : s.acceptBeat.count = s.count := rfl
@[simp] theorem State.acceptBeat_fill (s : State) : s.acceptBeat.fill = s.fill := rfl
@[simp] theorem State.acceptBeat_owed (s : State) : s.acceptBeat.owed = s.owed := rfl
@[simp] theorem State.acceptBeat_exh (s : State) : s.acceptBeat.exh = s.exh := rfl
@[simp] theorem State.acceptBeat_t (s : State) : s.acceptBeat.t = s.t := rfl
@[simp] theorem State.acceptBeat_h (s : State) : s.acceptBeat.h = s.h := rfl
@[simp] theorem State.acceptBeat_v (s : State) : s.acceptBeat.v = s.v := rfl
@[simp] theorem State.acceptBeat_w (s : State) : s.acceptBeat.w = s.w := rfl
@[simp] theorem State.acceptBeat_buf (s : State) : s.acceptBeat.buf = s.buf := rfl
@[simp] theorem State.acceptBeat_inp (s : State) : s.acceptBeat.inp = s.inp := rfl
@[simp] theorem State.acceptBeat_out (s : State) : s.acceptBeat.out = { s.out with srcAccept := true } := rfl
@[simp] theorem State.acceptBeat_probe (s : State) : s.acceptBeat.probe = s.probe := rfl
@[simp] theorem State.acceptBeat_freeCtr (s : State) : s.acceptBeat.freeCtr = s.freeCtr := rfl

/-! ## `accept cmd` -/

@[simp] theorem State.acceptCmd_ph (s : State) : s.acceptCmd.ph = s.ph := rfl
@[simp] theorem State.acceptCmd_cause (s : State) : s.acceptCmd.cause = s.cause := rfl
@[simp] theorem State.acceptCmd_count (s : State) : s.acceptCmd.count = s.count := rfl
@[simp] theorem State.acceptCmd_fill (s : State) : s.acceptCmd.fill = s.fill := rfl
@[simp] theorem State.acceptCmd_owed (s : State) : s.acceptCmd.owed = s.owed := rfl
@[simp] theorem State.acceptCmd_exh (s : State) : s.acceptCmd.exh = s.exh := rfl
@[simp] theorem State.acceptCmd_t (s : State) : s.acceptCmd.t = s.t := rfl
@[simp] theorem State.acceptCmd_h (s : State) : s.acceptCmd.h = s.h := rfl
@[simp] theorem State.acceptCmd_v (s : State) : s.acceptCmd.v = s.v := rfl
@[simp] theorem State.acceptCmd_w (s : State) : s.acceptCmd.w = s.w := rfl
@[simp] theorem State.acceptCmd_buf (s : State) : s.acceptCmd.buf = s.buf := rfl
@[simp] theorem State.acceptCmd_inp (s : State) : s.acceptCmd.inp = s.inp := rfl
@[simp] theorem State.acceptCmd_out (s : State) : s.acceptCmd.out = { s.out with cmdAccept := true } := rfl
@[simp] theorem State.acceptCmd_probe (s : State) : s.acceptCmd.probe = s.probe := rfl
@[simp] theorem State.acceptCmd_freeCtr (s : State) : s.acceptCmd.freeCtr = s.freeCtr := rfl

/-! ## `emit BUF` -/

@[simp] theorem State.emit_ph (s : State) : s.emit.ph = s.ph := rfl
@[simp] theorem State.emit_cause (s : State) : s.emit.cause = s.cause := rfl
@[simp] theorem State.emit_count (s : State) : s.emit.count = s.count := rfl
@[simp] theorem State.emit_fill (s : State) : s.emit.fill = s.fill := rfl
@[simp] theorem State.emit_owed (s : State) : s.emit.owed = s.owed := rfl
@[simp] theorem State.emit_exh (s : State) : s.emit.exh = s.exh := rfl
@[simp] theorem State.emit_t (s : State) : s.emit.t = s.t := rfl
@[simp] theorem State.emit_h (s : State) : s.emit.h = s.h := rfl
@[simp] theorem State.emit_v (s : State) : s.emit.v = s.v := rfl
@[simp] theorem State.emit_w (s : State) : s.emit.w = s.w := rfl
@[simp] theorem State.emit_buf (s : State) : s.emit.buf = s.buf := rfl
@[simp] theorem State.emit_inp (s : State) : s.emit.inp = s.inp := rfl
@[simp] theorem State.emit_out (s : State) : s.emit.out = { s.out with blk := some (blockBits s.buf) } := rfl
@[simp] theorem State.emit_probe (s : State) : s.emit.probe = s.probe := rfl
@[simp] theorem State.emit_freeCtr (s : State) : s.emit.freeCtr = s.freeCtr := rfl

/-! ## A primitive run on its own -/

@[simp] theorem State.showWord_ph (r : Word) (s : State) : (s.showWord r).ph = s.ph := rfl
@[simp] theorem State.showWord_cause (r : Word) (s : State) : (s.showWord r).cause = s.cause := rfl
@[simp] theorem State.showWord_count (r : Word) (s : State) : (s.showWord r).count = s.count := rfl
@[simp] theorem State.showWord_fill (r : Word) (s : State) : (s.showWord r).fill = s.fill := rfl
@[simp] theorem State.showWord_owed (r : Word) (s : State) : (s.showWord r).owed = s.owed := rfl
@[simp] theorem State.showWord_exh (r : Word) (s : State) : (s.showWord r).exh = s.exh := rfl
@[simp] theorem State.showWord_t (r : Word) (s : State) : (s.showWord r).t = s.t := rfl
@[simp] theorem State.showWord_h (r : Word) (s : State) : (s.showWord r).h = s.h := rfl
@[simp] theorem State.showWord_v (r : Word) (s : State) : (s.showWord r).v = s.v := rfl
@[simp] theorem State.showWord_w (r : Word) (s : State) : (s.showWord r).w = s.w := rfl
@[simp] theorem State.showWord_buf (r : Word) (s : State) : (s.showWord r).buf = s.buf := rfl
@[simp] theorem State.showWord_inp (r : Word) (s : State) : (s.showWord r).inp = s.inp := rfl
@[simp] theorem State.showWord_out (r : Word) (s : State) : (s.showWord r).out = { Outputs.quiet with word := some r } := rfl
@[simp] theorem State.showWord_probe (r : Word) (s : State) : (s.showWord r).probe = s.probe := rfl
@[simp] theorem State.showWord_freeCtr (r : Word) (s : State) : (s.showWord r).freeCtr = s.freeCtr := rfl

/-! ## A beat at the source lines -/

@[simp] theorem State.offerBeat_ph (k : BitVec 2) (b : Byte) (s : State) : (s.offerBeat k b).ph = s.ph := rfl
@[simp] theorem State.offerBeat_cause (k : BitVec 2) (b : Byte) (s : State) : (s.offerBeat k b).cause = s.cause := rfl
@[simp] theorem State.offerBeat_count (k : BitVec 2) (b : Byte) (s : State) : (s.offerBeat k b).count = s.count := rfl
@[simp] theorem State.offerBeat_fill (k : BitVec 2) (b : Byte) (s : State) : (s.offerBeat k b).fill = s.fill := rfl
@[simp] theorem State.offerBeat_owed (k : BitVec 2) (b : Byte) (s : State) : (s.offerBeat k b).owed = s.owed := rfl
@[simp] theorem State.offerBeat_exh (k : BitVec 2) (b : Byte) (s : State) : (s.offerBeat k b).exh = s.exh := rfl
@[simp] theorem State.offerBeat_t (k : BitVec 2) (b : Byte) (s : State) : (s.offerBeat k b).t = s.t := rfl
@[simp] theorem State.offerBeat_h (k : BitVec 2) (b : Byte) (s : State) : (s.offerBeat k b).h = s.h := rfl
@[simp] theorem State.offerBeat_v (k : BitVec 2) (b : Byte) (s : State) : (s.offerBeat k b).v = s.v := rfl
@[simp] theorem State.offerBeat_w (k : BitVec 2) (b : Byte) (s : State) : (s.offerBeat k b).w = s.w := rfl
@[simp] theorem State.offerBeat_buf (k : BitVec 2) (b : Byte) (s : State) : (s.offerBeat k b).buf = s.buf := rfl
@[simp] theorem State.offerBeat_inp (k : BitVec 2) (b : Byte) (s : State) : (s.offerBeat k b).inp = { s.inp with srcValid := true, srcKind := k, srcData := b } := rfl
@[simp] theorem State.offerBeat_out (k : BitVec 2) (b : Byte) (s : State) : (s.offerBeat k b).out = s.out := rfl
@[simp] theorem State.offerBeat_probe (k : BitVec 2) (b : Byte) (s : State) : (s.offerBeat k b).probe = s.probe := rfl
@[simp] theorem State.offerBeat_freeCtr (k : BitVec 2) (b : Byte) (s : State) : (s.offerBeat k b).freeCtr = s.freeCtr := rfl

/-! ## A command at the command lines -/

@[simp] theorem State.offerCmd_ph (c : BitVec 2) (s : State) : (s.offerCmd c).ph = s.ph := rfl
@[simp] theorem State.offerCmd_cause (c : BitVec 2) (s : State) : (s.offerCmd c).cause = s.cause := rfl
@[simp] theorem State.offerCmd_count (c : BitVec 2) (s : State) : (s.offerCmd c).count = s.count := rfl
@[simp] theorem State.offerCmd_fill (c : BitVec 2) (s : State) : (s.offerCmd c).fill = s.fill := rfl
@[simp] theorem State.offerCmd_owed (c : BitVec 2) (s : State) : (s.offerCmd c).owed = s.owed := rfl
@[simp] theorem State.offerCmd_exh (c : BitVec 2) (s : State) : (s.offerCmd c).exh = s.exh := rfl
@[simp] theorem State.offerCmd_t (c : BitVec 2) (s : State) : (s.offerCmd c).t = s.t := rfl
@[simp] theorem State.offerCmd_h (c : BitVec 2) (s : State) : (s.offerCmd c).h = s.h := rfl
@[simp] theorem State.offerCmd_v (c : BitVec 2) (s : State) : (s.offerCmd c).v = s.v := rfl
@[simp] theorem State.offerCmd_w (c : BitVec 2) (s : State) : (s.offerCmd c).w = s.w := rfl
@[simp] theorem State.offerCmd_buf (c : BitVec 2) (s : State) : (s.offerCmd c).buf = s.buf := rfl
@[simp] theorem State.offerCmd_inp (c : BitVec 2) (s : State) : (s.offerCmd c).inp = { s.inp with cmdValid := true, cmd := c } := rfl
@[simp] theorem State.offerCmd_out (c : BitVec 2) (s : State) : (s.offerCmd c).out = s.out := rfl
@[simp] theorem State.offerCmd_probe (c : BitVec 2) (s : State) : (s.offerCmd c).probe = s.probe := rfl
@[simp] theorem State.offerCmd_freeCtr (c : BitVec 2) (s : State) : (s.offerCmd c).freeCtr = s.freeCtr := rfl

/-! ## Fault entry (R197) -/

@[simp] theorem raiseFault_ph (c : Cause) (s : State) : (raiseFault c s).ph = .fault := rfl
@[simp] theorem raiseFault_cause (c : Cause) (s : State) : (raiseFault c s).cause = c := rfl
@[simp] theorem raiseFault_count (c : Cause) (s : State) : (raiseFault c s).count = s.count := rfl
@[simp] theorem raiseFault_fill (c : Cause) (s : State) : (raiseFault c s).fill = s.fill := rfl
@[simp] theorem raiseFault_owed (c : Cause) (s : State) : (raiseFault c s).owed = s.owed := rfl
@[simp] theorem raiseFault_exh (c : Cause) (s : State) : (raiseFault c s).exh = s.exh := rfl
@[simp] theorem raiseFault_t (c : Cause) (s : State) : (raiseFault c s).t = s.t := rfl
@[simp] theorem raiseFault_h (c : Cause) (s : State) : (raiseFault c s).h = s.h := rfl
@[simp] theorem raiseFault_v (c : Cause) (s : State) : (raiseFault c s).v = s.v := rfl
@[simp] theorem raiseFault_w (c : Cause) (s : State) : (raiseFault c s).w = s.w := rfl
@[simp] theorem raiseFault_buf (c : Cause) (s : State) : (raiseFault c s).buf = s.buf := rfl
@[simp] theorem raiseFault_inp (c : Cause) (s : State) : (raiseFault c s).inp = s.inp := rfl
@[simp] theorem raiseFault_out (c : Cause) (s : State) : (raiseFault c s).out = s.out := rfl
@[simp] theorem raiseFault_probe (c : Cause) (s : State) : (raiseFault c s).probe = s.probe := rfl
@[simp] theorem raiseFault_freeCtr (c : Cause) (s : State) : (raiseFault c s).freeCtr = s.freeCtr := rfl

/-! ## The reset step (R220) -/

@[simp] theorem resetStep_ph (s : State) : (resetStep s).ph = .idle := rfl
@[simp] theorem resetStep_cause (s : State) : (resetStep s).cause = .none := rfl
@[simp] theorem resetStep_count (s : State) : (resetStep s).count = 0 := rfl
@[simp] theorem resetStep_fill (s : State) : (resetStep s).fill = 0 := rfl
@[simp] theorem resetStep_owed (s : State) : (resetStep s).owed = false := rfl
@[simp] theorem resetStep_exh (s : State) : (resetStep s).exh = false := rfl
@[simp] theorem resetStep_t (s : State) : (resetStep s).t = 0 := rfl
@[simp] theorem resetStep_h (s : State) : (resetStep s).h = freeH s.freeCtr := rfl
@[simp] theorem resetStep_v (s : State) : (resetStep s).v = freeWork s.freeCtr := rfl
@[simp] theorem resetStep_w (s : State) : (resetStep s).w = freeSchedule s.freeCtr := rfl
@[simp] theorem resetStep_buf (s : State) : (resetStep s).buf = freeBuf s.freeCtr := rfl
@[simp] theorem resetStep_inp (s : State) : (resetStep s).inp = s.inp := rfl
@[simp] theorem resetStep_out (s : State) : (resetStep s).out = Outputs.quiet := rfl
@[simp] theorem resetStep_probe (s : State) : (resetStep s).probe = s.probe := rfl
@[simp] theorem resetStep_freeCtr (s : State) : (resetStep s).freeCtr = s.freeCtr := rfl

/-! ## The end of a step -/

@[simp] theorem envTick_ph (s : State) : (envTick s).ph = s.ph := rfl
@[simp] theorem envTick_cause (s : State) : (envTick s).cause = s.cause := rfl
@[simp] theorem envTick_count (s : State) : (envTick s).count = s.count := rfl
@[simp] theorem envTick_fill (s : State) : (envTick s).fill = s.fill := rfl
@[simp] theorem envTick_owed (s : State) : (envTick s).owed = s.owed := rfl
@[simp] theorem envTick_exh (s : State) : (envTick s).exh = s.exh := rfl
@[simp] theorem envTick_t (s : State) : (envTick s).t = s.t := rfl
@[simp] theorem envTick_h (s : State) : (envTick s).h = s.h := rfl
@[simp] theorem envTick_v (s : State) : (envTick s).v = s.v := rfl
@[simp] theorem envTick_w (s : State) : (envTick s).w = s.w := rfl
@[simp] theorem envTick_buf (s : State) : (envTick s).buf = s.buf := rfl
@[simp] theorem envTick_inp (s : State) : (envTick s).inp = s.inp.tick s.out := rfl
@[simp] theorem envTick_out (s : State) : (envTick s).out = s.out := rfl
@[simp] theorem envTick_probe (s : State) : (envTick s).probe = none := rfl
@[simp] theorem envTick_freeCtr (s : State) : (envTick s).freeCtr = s.freeCtr + 1 := rfl

end Sys2Proof.Machine
end

