-- ==== Sys2Proof/Laws/Exec.lean ====
section
/-! SUPPORT. One lemma for each shared operation of the meanings that says once everything it can do. -/

namespace Sys2Proof.Machine

/-- R114: everything PAD.DATA can do. -/
theorem padDataOp_cases (b : Byte) (s : State) :
    (s.fill.toNat < 64 ∧ padDataOp b s =
      .next { s with buf := s.buf.write s.fill.toNat b, fill := s.fill + 1, count := s.count + 1, ph := .fill,
                     out := { Outputs.quiet with srcAccept := true } }) ∨
      (64 ≤ s.fill.toNat ∧ padDataOp b s = .fault .bufRange) := by
  rcases Nat.lt_or_ge s.fill.toNat 64 with h | h
  · exact .inl ⟨h, by rw [padDataOp, memWrite_one _ _ _ h]; rfl⟩
  · exact .inr ⟨h, by rw [padDataOp, memWrite_one_outside _ _ _ h]⟩

/-- R116: everything PAD.EOS.FIT can do. -/
theorem padEosFitOp_cases (s : State) :
    (s.fill.toNat < 64 ∧ padEosFitOp s =
      .next { s with buf := writeLength (s.buf.write s.fill.toNat terminator) s.count, exh := true, ph := .load,
                     out := { Outputs.quiet with
                       srcAccept := true
                       blk := some (blockBits (writeLength (s.buf.write s.fill.toNat terminator) s.count)) } }) ∨
      (64 ≤ s.fill.toNat ∧ padEosFitOp s = .fault .bufRange) := by
  rcases Nat.lt_or_ge s.fill.toNat 64 with h | h
  · exact .inl ⟨h, by rw [padEosFitOp, memWrite_one _ _ _ h]; rfl⟩
  · exact .inr ⟨h, by rw [padEosFitOp, memWrite_one_outside _ _ _ h]⟩

/-- R117: everything PAD.EOS.SPILL can do. -/
theorem padEosSpillOp_cases (s : State) :
    (s.fill.toNat < 64 ∧ padEosSpillOp s =
      .next { s with buf := s.buf.write s.fill.toNat terminator, owed := true, ph := .load,
                     out := { Outputs.quiet with
                       srcAccept := true
                       blk := some (blockBits (s.buf.write s.fill.toNat terminator)) } }) ∨
      (64 ≤ s.fill.toNat ∧ padEosSpillOp s = .fault .bufRange) := by
  rcases Nat.lt_or_ge s.fill.toNat 64 with h | h
  · exact .inl ⟨h, by rw [padEosSpillOp, memWrite_one _ _ _ h]; rfl⟩
  · exact .inr ⟨h, by rw [padEosSpillOp, memWrite_one_outside _ _ _ h]⟩

/-- R142: everything CE.EXPAND can do. -/
theorem execCeExpand_cases (s : State) :
    (∃ h : 16 ≤ s.t.toNat ∧ s.t.toNat < 80,
      (s.t.toNat = 79 ∧ execCeExpand s = .next { s with
        w := s.w.set s.t.toNat (expandWord s.w[s.t.toNat - 3] s.w[s.t.toNat - 8] s.w[s.t.toNat - 14] s.w[s.t.toNat - 16])
        ph := .initv, out := Outputs.quiet }) ∨
      (s.t.toNat < 79 ∧ execCeExpand s = .next { s with
        w := s.w.set s.t.toNat (expandWord s.w[s.t.toNat - 3] s.w[s.t.toNat - 8] s.w[s.t.toNat - 14] s.w[s.t.toNat - 16])
        t := s.t + 1, ph := .expand, out := Outputs.quiet })) ∨
      (¬ (16 ≤ s.t.toNat ∧ s.t.toNat < 80) ∧ execCeExpand s = invariantFault s) := by
  by_cases h : 16 ≤ s.t.toNat ∧ s.t.toNat < 80
  · refine .inl ⟨h, ?_⟩
    by_cases h79 : s.t.toNat = 79
    · exact .inl ⟨h79, by simp only [execCeExpand, dif_pos h, if_pos h79]; rfl⟩
    · exact .inr ⟨by omega, by simp only [execCeExpand, dif_pos h, if_neg h79]; rfl⟩
  · exact .inr ⟨h, by simp only [execCeExpand, dif_neg h]⟩

/-- R150: everything a round can do. -/
theorem roundOp_cases (f : Word → Word → Word → Word) (k : Word) (s : State) :
    (∃ h : s.t.toNat < 80,
      (s.t.toNat = 79 ∧ roundOp f k s = .next { s with
        v := roundWork s.v (f s.v.b s.v.c s.v.d) s.w[s.t.toNat] k, ph := .acc, out := Outputs.quiet }) ∨
      (s.t.toNat < 79 ∧ roundOp f k s = .next { s with
        v := roundWork s.v (f s.v.b s.v.c s.v.d) s.w[s.t.toNat] k, t := s.t + 1, ph := .round, out := Outputs.quiet })) ∨
      (80 ≤ s.t.toNat ∧ roundOp f k s = invariantFault s) := by
  rcases Nat.lt_or_ge s.t.toNat 80 with h | h
  · refine .inl ⟨h, ?_⟩
    by_cases h79 : s.t.toNat = 79
    · exact .inl ⟨h79, by simp only [roundOp, dif_pos h, if_pos h79]; rfl⟩
    · exact .inr ⟨by omega, by simp only [roundOp, dif_pos h, if_neg h79]; rfl⟩
  · exact .inr ⟨h, by simp only [roundOp, dif_neg (by omega : ¬ s.t.toNat < 80)]⟩

end Sys2Proof.Machine
end

