-- ==== Sys2Proof/Laws/PerInstr.lean ====
section
/-! SUPPORT. Statements for all instructions, made one constructor at a time. Family `EncodeFits`: an encoded
instruction fits the width of its format (30_encoding.md R70). -/

namespace Sys2Proof.Laws.EncodeFits

def Statement (i : Instr) : Prop := (encode i).2 < 2 ^ (encode i).1.width

theorem cmdNop : Statement .cmdNop := by unfold Statement; decide
theorem cmdStart : Statement .cmdStart := by unfold Statement; decide
theorem cmdReserved (lo : Bool) : Statement (.cmdReserved lo) := by cases lo <;> (unfold Statement; decide)
theorem beatData (b : Byte) : Statement (.beatData b) := BitVec.isLt (_ : BitVec (2 + 8))
theorem beatEos (d : Byte) : Statement (.beatEos d) := BitVec.isLt (_ : BitVec (2 + 8))
theorem beatErr (d : Byte) : Statement (.beatErr d) := BitVec.isLt (_ : BitVec (2 + 8))
theorem beatReserved (d : Byte) : Statement (.beatReserved d) := BitVec.isLt (_ : BitVec (2 + 8))
theorem seqHoldIdle : Statement .seqHoldIdle := by unfold Statement; decide
theorem padNextExh : Statement .padNextExh := by unfold Statement; decide
theorem padNextOwed : Statement .padNextOwed := by unfold Statement; decide
theorem padNextRead : Statement .padNextRead := by unfold Statement; decide
theorem padFull : Statement .padFull := by unfold Statement; decide
theorem padWait : Statement .padWait := by unfold Statement; decide
theorem padData : Statement .padData := by unfold Statement; decide
theorem padDataOvf : Statement .padDataOvf := by unfold Statement; decide
theorem padEosFit : Statement .padEosFit := by unfold Statement; decide
theorem padEosSpill : Statement .padEosSpill := by unfold Statement; decide
theorem padErr : Statement .padErr := by unfold Statement; decide
theorem ceLoad : Statement .ceLoad := by unfold Statement; decide
theorem ceExpand : Statement .ceExpand := by unfold Statement; decide
theorem seqInvExpandHigh : Statement .seqInvExpandHigh := by unfold Statement; decide
theorem seqInvExpandLow : Statement .seqInvExpandLow := by unfold Statement; decide
theorem ceInitv : Statement .ceInitv := by unfold Statement; decide
theorem ceRoundF0 : Statement .ceRoundF0 := by unfold Statement; decide
theorem ceRoundF1 : Statement .ceRoundF1 := by unfold Statement; decide
theorem ceRoundF2 : Statement .ceRoundF2 := by unfold Statement; decide
theorem ceRoundF3 : Statement .ceRoundF3 := by unfold Statement; decide
theorem seqInvRoundHigh : Statement .seqInvRoundHigh := by unfold Statement; decide
theorem ceAcc : Statement .ceAcc := by unfold Statement; decide
theorem seqHoldDone : Statement .seqHoldDone := by unfold Statement; decide
theorem seqInvPh9 : Statement .seqInvPh9 := by unfold Statement; decide
theorem seqInvPhAB : Statement .seqInvPhAB := by unfold Statement; decide
theorem seqInvPhCD : Statement .seqInvPhCD := by unfold Statement; decide
theorem seqInvPhE : Statement .seqInvPhE := by unfold Statement; decide
theorem seqHoldFault : Statement .seqHoldFault := by unfold Statement; decide
theorem add32 (a b : Word) : Statement (.add32 a b) := (primWord 0b000 a b).isLt
theorem rotl32 (a n : Word) : Statement (.rotl32 a n) := (primWord 0b001 a n).isLt
theorem and32 (a b : Word) : Statement (.and32 a b) := (primWord 0b010 a b).isLt
theorem or32 (a b : Word) : Statement (.or32 a b) := (primWord 0b011 a b).isLt
theorem xor32 (a b : Word) : Statement (.xor32 a b) := (primWord 0b100 a b).isLt
theorem not32 (a : Word) : Statement (.not32 a) := (primWord 0b101 a 0).isLt
theorem primReserved (lo : Bool) : Statement (.primReserved lo) := by cases lo <;> (unfold Statement; decide)
theorem fmtHex : Statement .fmtHex := by unfold Statement; decide

end Sys2Proof.Laws.EncodeFits
end

