-- ==== Sys2Proof/Laws/Select.lean ====
section
/-! SUPPORT. What a step can run, and when: the row of the opcode map each state selects (10_state.md R39,
30_encoding.md R86), the four command codes (R81), the units that can be run on their own (log 8). -/

namespace Sys2Proof.Machine

/-- R26, R86: `CNTMAX` as a number. -/
theorem count_eq_countMax (s : State) : s.count = countMax ↔ s.count.toNat = 2 ^ 61 - 1 := by
  rw [← BitVec.toNat_inj]; simp [countMax]

/-- R86: `Q` as a number. -/
theorem quadrant_eq (t : BitVec 7) (k : Nat) (hk : k < 4) (ht : t.toNat ≤ 79) :
    quadrant t = BitVec.ofNat 2 k ↔ t.toNat / 20 = k := by
  unfold quadrant
  rw [if_pos ht, ← BitVec.toNat_inj, BitVec.toNat_ofNat, BitVec.toNat_ofNat]
  omega

/-- R81: the four command codes. -/
theorem decodeCmd_cases (c : BitVec 2) :
    (c = 0 ∧ decodeCmd c = .cmdNop) ∨ (c = 1 ∧ decodeCmd c = .cmdStart) ∨
      (c = 2 ∧ decodeCmd c = .cmdReserved false) ∨ (c = 3 ∧ decodeCmd c = .cmdReserved true) := by
  revert c; decide

/-- R171: an accepted START is offered in `IDLE` or `DONE`. -/
theorem takesCommand_start {s : State} (hc : s.takesCommand = true) (h1 : s.inp.cmd = 1) :
    s.inp.cmdValid = true ∧ (s.ph = .idle ∨ s.ph = .done) := by
  simpa [State.takesCommand, h1, State.acceptsStart] using hc

/-- Log 8: a unit run on its own is a Word primitive or `FMT.HEX`. -/
theorem fetch_probe_cases {s : State} (h : s.probe ≠ none) {i : Instr} (hf : s.fetch = .ok i) :
    (∃ a b, i = .add32 a b ∨ i = .rotl32 a b ∨ i = .and32 a b ∨ i = .or32 a b ∨ i = .xor32 a b) ∨
      (∃ a, i = .not32 a) ∨ (∃ l, i = .primReserved l) ∨ i = .fmtHex := by
  unfold State.fetch State.nextWord at hf
  match hp : s.probe, h with
  | some .hex, _ =>
    rw [hp] at hf
    simp [decode, Format.width] at hf
    simp [← hf]
  | some (.prim w), _ =>
    rw [hp] at hf
    simp only [decode] at hf
    split at hf
    · simp only [decodePrim, decodePrimFn] at hf
      split at hf
      all_goals (try split at hf)
      all_goals first | (injection hf with hf; subst hf; simp) | cases hf
    · cases hf

/-- R39, R86: which row of the opcode map a state selects, row by row, for every state. -/
theorem selectUop_cases {s : State} {i : Instr} (h : selectUop s.dw = i) :
    (s.ph = .idle ∧ i = .seqHoldIdle) ∨ (s.ph = .done ∧ i = .seqHoldDone) ∨ (s.ph = .fault ∧ i = .seqHoldFault) ∨
    (s.ph = .req ∧ s.exh = true ∧ i = .padNextExh) ∨ (s.ph = .req ∧ s.exh = false ∧ s.owed = true ∧ i = .padNextOwed) ∨
    (s.ph = .req ∧ s.exh = false ∧ s.owed = false ∧ i = .padNextRead) ∨
    (s.ph = .fill ∧ s.fill.toNat = 64 ∧ i = .padFull) ∨
    (s.ph = .fill ∧ s.fill.toNat ≠ 64 ∧ s.inp.srcValid = false ∧ i = .padWait) ∨
    (s.ph = .fill ∧ s.fill.toNat ≠ 64 ∧ s.inp.srcValid = true ∧
      ((s.inp.srcKind = 0b00 ∧ s.count.toNat < 2 ^ 61 - 1 ∧ i = .padData) ∨
       (s.inp.srcKind = 0b00 ∧ s.count.toNat = 2 ^ 61 - 1 ∧ i = .padDataOvf) ∨
       (s.inp.srcKind = 0b01 ∧ s.fill.toNat ≤ 55 ∧ i = .padEosFit) ∨
       (s.inp.srcKind = 0b01 ∧ 56 ≤ s.fill.toNat ∧ i = .padEosSpill) ∨
       ((s.inp.srcKind = 0b10 ∨ s.inp.srcKind = 0b11) ∧ i = .padErr))) ∨
    (s.ph = .load ∧ i = .ceLoad) ∨ (s.ph = .expand ∧ 80 ≤ s.t.toNat ∧ i = .seqInvExpandHigh) ∨
    (s.ph = .expand ∧ s.t.toNat < 16 ∧ i = .seqInvExpandLow) ∨ (s.ph = .expand ∧ 16 ≤ s.t.toNat ∧ s.t.toNat ≤ 79 ∧ i = .ceExpand) ∨
    (s.ph = .initv ∧ i = .ceInitv) ∨ (s.ph = .round ∧ 80 ≤ s.t.toNat ∧ i = .seqInvRoundHigh) ∨
    (s.ph = .round ∧ s.t.toNat ≤ 19 ∧ i = .ceRoundF0) ∨ (s.ph = .round ∧ 20 ≤ s.t.toNat ∧ s.t.toNat ≤ 39 ∧ i = .ceRoundF1) ∨
    (s.ph = .round ∧ 40 ≤ s.t.toNat ∧ s.t.toNat ≤ 59 ∧ i = .ceRoundF2) ∨
    (s.ph = .round ∧ 60 ≤ s.t.toNat ∧ s.t.toNat ≤ 79 ∧ i = .ceRoundF3) ∨ (s.ph = .acc ∧ i = .ceAcc) ∨
    (s.ph ∈ [Phase.rsv9, .rsvA, .rsvB, .rsvC, .rsvD, .rsvE]) := by
  subst h
  have hq := fun k hk ht => quadrant_eq s.t k hk ht
  unfold selectUop
  match hph : s.ph with
  | .idle => simp [State.dw, hph]
  | .done => simp [State.dw, hph]
  | .fault => simp [State.dw, hph]
  | .req =>
    simp only [State.dw, hph]
    cases s.exh <;> cases s.owed <;> simp
  | .fill =>
    simp only [State.dw, hph, decide_eq_true_eq, ← count_eq_countMax]
    have hc : s.count.toNat < 2 ^ 61 - 1 ↔ ¬ s.count = countMax := by
      have := s.count.isLt
      rw [count_eq_countMax]; omega
    simp only [hc]
    by_cases h1 : s.fill.toNat = 64
    · simp [h1]
    · cases h2 : s.inp.srcValid
      · simp [h1]
      · simp only [h1]
        generalize s.inp.srcKind = k
        have : k = 0 ∨ k = 1 ∨ k = 2 ∨ k = 3 := by revert k; decide
        rcases this with h | h | h | h <;> subst h
        · by_cases hm : s.count = countMax <;> simp [hm, h1]
        · by_cases hm : 56 ≤ s.fill.toNat
          · simp [hm, h1]
          · have : s.fill.toNat ≤ 55 := by omega
            simp [hm, this, h1]
        · simp [h1]
        · simp [h1]
  | .load => simp [State.dw, hph]
  | .expand =>
    simp only [State.dw, hph, decide_eq_true_eq]
    by_cases h1 : 80 ≤ s.t.toNat
    · simp [h1]
    · by_cases h2 : s.t.toNat < 16
      · simp [h1, h2]
      · have : 16 ≤ s.t.toNat ∧ s.t.toNat ≤ 79 := by omega
        simp [h1, h2, this]
  | .initv => simp [State.dw, hph]
  | .round =>
    simp only [State.dw, hph, decide_eq_true_eq]
    by_cases h1 : 80 ≤ s.t.toNat
    · simp [h1]
    · have h79 : s.t.toNat ≤ 79 := by omega
      have e0 := hq 0 (by omega) h79
      have e1 := hq 1 (by omega) h79
      have e2 := hq 2 (by omega) h79
      rw [if_neg h1]
      simp only [e0, e1, e2, BitVec.ofNat_eq_ofNat]
      simp only [reduceCtorEq, false_and, false_or, true_and, List.mem_cons, List.not_mem_nil, or_false]
      split
      · right; left; exact ⟨by omega, rfl⟩
      · split
        · right; right; left; exact ⟨by omega, by omega, rfl⟩
        · split
          · right; right; right; left; exact ⟨by omega, by omega, rfl⟩
          · right; right; right; right; exact ⟨by omega, by omega, rfl⟩
  | .acc => simp [State.dw, hph]
  | .rsv9 => simp
  | .rsvA => simp
  | .rsvB => simp
  | .rsvC => simp
  | .rsvD => simp
  | .rsvE => simp

end Sys2Proof.Machine
end

