-- ==== Sys2Proof/Laws/Step.lean ====
section
/-! SUPPORT. Everything a step can do (00_scope.md R7). -/

namespace Sys2Proof.Machine

theorem step_reset {s : State} {r : ResetReq} (h : s.inp.rst = some r) : step s = .next (envTick (resetStep s)) := by
  simp [step, h]

theorem step_ok {s : State} {i : Instr} (h : s.inp.rst = none) (hf : s.fetch = .ok i) : step s = afterExec (exec i s) := by
  simp [step, h, hf]

theorem step_error {s : State} {r : Reject} (h : s.inp.rst = none) (hf : s.fetch = .error r) :
    step s = .refused (.badEncoding r) := by
  simp [step, h, hf]

theorem afterExec_next {r : Result} {t : State} (h : afterExec r = .next t) : ∃ u, r = .next u ∧ t = envTick u := by
  cases r with
  | next u => exact ⟨u, rfl, by simpa [afterExec] using h.symm⟩
  | fault f => simp [afterExec] at h
  | refused f => simp [afterExec] at h

/-- Inversion of a step: a reset, or the instruction fetched, followed by the end of the step. -/
theorem step_cases {s t : State} (h : step s = .next t) :
    (s.inp.rst ≠ none ∧ t = envTick (resetStep s)) ∨
      ∃ i u, s.inp.rst = none ∧ s.fetch = .ok i ∧ exec i s = .next u ∧ t = envTick u := by
  cases hr : s.inp.rst with
  | some r =>
    rw [step_reset hr] at h
    exact .inl ⟨by simp, by simpa using h.symm⟩
  | none =>
    cases hf : s.fetch with
    | error r => rw [step_error hr hf] at h; simp at h
    | ok i =>
      rw [step_ok hr hf] at h
      obtain ⟨u, hu, rfl⟩ := afterExec_next h
      exact .inr ⟨i, u, rfl, rfl, hu, rfl⟩

end Sys2Proof.Machine
end

