-- ==== Sys2Proof/Laws/Ports.lean ====
section
/-! SUPPORT. The ports over a step: what an instruction does there, and that no offer is lost at the end of a step
(70_reset_and_hazards.md R226, R230; log 2). -/

namespace Sys2Proof.Machine

/-- R57, R120, R180, R226: what a fetched instruction does at the ports: the input side is left as it is, a beat is accepted
only where one is offered in `FILL`, a command only where it is the step, and a block is shown exactly by the four
instructions that emit, as `BUF` is after the step's writes. -/
theorem exec_ports {s u : State} {i : Instr} (hf : s.fetch = .ok i) (hx : exec i s = .next u) :
    u.inp.rst = s.inp.rst ∧ u.inp.rstLane = s.inp.rstLane ∧ u.inp.cmdValid = s.inp.cmdValid ∧ u.inp.cmd = s.inp.cmd ∧
    u.inp.cmdLane = s.inp.cmdLane ∧
    u.inp.srcValid = s.inp.srcValid ∧ u.inp.srcKind = s.inp.srcKind ∧ u.inp.srcData = s.inp.srcData ∧ u.inp.srcLane = s.inp.srcLane ∧
    (u.out.srcAccept = true → s.ph = .fill ∧ s.fill.toNat ≠ 64 ∧ s.inp.srcValid = true) ∧
    (u.out.cmdAccept = true → s.takesCommand = true ∧ s.probe = none ∧ u.out.srcAccept = false ∧ u.out.blk = none) ∧
    (u.out.blk.isSome ↔ i ∈ [Instr.padFull, .padEosFit, .padEosSpill, .padNextOwed]) ∧
    (∀ x, u.out.blk = some x → x = blockBits u.buf) := by
  by_cases hp : s.probe = none
  · rcases fetch_cases hp with ⟨hc, hf'⟩ | ⟨hc, hf'⟩
    · have hv : s.inp.cmdValid = true := by simp [State.takesCommand] at hc; exact hc.1
      rw [hf'] at hf; injection hf with hf
      rcases decodeCmd_cases s.inp.cmd with ⟨hk, hd⟩ | ⟨hk, hd⟩ | ⟨hk, hd⟩ | ⟨hk, hd⟩ <;> rw [hd] at hf <;> subst hf
      · simp only [exec, execCmdNop, Host.Outcome.next.injEq] at hx; subst hx; simp [Outputs.quiet, hv, hk, hc, hp]
      · have hst := takesCommand_start hc hk
        simp only [exec, execCmdStart] at hx
        split at hx <;> cases hx <;> simp [Outputs.quiet, hv, hk, hc, hp]
      · simp only [exec, execCmdReserved, Host.Outcome.next.injEq] at hx; subst hx; simp [Outputs.quiet, hv, hk, hc, hp]
      · simp only [exec, execCmdReserved, Host.Outcome.next.injEq] at hx; subst hx; simp [Outputs.quiet, hv, hk, hc, hp]
    · rw [hf'] at hf; injection hf with hf
      have rnd : ∀ f k, roundOp f k s = .next u → u.inp = s.inp ∧ u.out = Outputs.quiet := by
        intro f k hx
        rcases roundOp_cases f k s with ⟨_, ⟨h79, e⟩ | ⟨h79, e⟩⟩ | ⟨hn, e⟩ <;> rw [e] at hx <;> cases hx <;> simp
      rcases selectUop_cases hf with ⟨hph, rfl⟩ | ⟨hph, rfl⟩ | ⟨hph, rfl⟩ | ⟨hph, he, rfl⟩ | ⟨hph, he, ho, rfl⟩ | ⟨hph, he, ho, rfl⟩ | ⟨hph, hF, rfl⟩ | ⟨hph, hF, hV, rfl⟩ | ⟨hph, hF, hV, hb⟩ | ⟨hph, rfl⟩ | ⟨hph, hT, rfl⟩ | ⟨hph, hT, rfl⟩ | ⟨hph, hT, hT', rfl⟩ | ⟨hph, rfl⟩ | ⟨hph, hT, rfl⟩ | ⟨hph, hT, rfl⟩ | ⟨hph, hT, hT', rfl⟩ | ⟨hph, hT, hT', rfl⟩ | ⟨hph, hT, hT', rfl⟩ | ⟨hph, rfl⟩ | hph
      all_goals try (cases hx; simp [Outputs.quiet]; done)
      · rcases hb with ⟨hk, hc, rfl⟩ | ⟨hk, hc, rfl⟩ | ⟨hk, hc, rfl⟩ | ⟨hk, hc, rfl⟩ | ⟨hk, rfl⟩
        · have hx : padDataOp _ s = _ := hx
          rcases padDataOp_cases s.inp.srcData s with ⟨hl, e⟩ | ⟨hl, e⟩ <;> rw [e] at hx <;> cases hx
          simp [Outputs.quiet, hph, hF, hV]
        · cases hx; simp [Outputs.quiet, hph, hF, hV]
        · have hx : padEosFitOp s = _ := hx
          rcases padEosFitOp_cases s with ⟨hl, e⟩ | ⟨hl, e⟩ <;> rw [e] at hx <;> cases hx
          simp [Outputs.quiet, hph, hF, hV]
        · have hx : padEosSpillOp s = _ := hx
          rcases padEosSpillOp_cases s with ⟨hl, e⟩ | ⟨hl, e⟩ <;> rw [e] at hx <;> cases hx
          simp [Outputs.quiet, hph, hF, hV]
        · cases hx; simp [Outputs.quiet, hph, hF, hV]
      · have hx : execCeExpand s = _ := hx
        rcases execCeExpand_cases s with ⟨_, ⟨h79, e⟩ | ⟨h79, e⟩⟩ | ⟨hn, e⟩ <;> rw [e] at hx <;> cases hx <;> simp [Outputs.quiet]
      all_goals try
        (have := rnd _ _ hx; simp [this.1, this.2, Outputs.quiet]; done)
      · simp at hph
        rcases hph with h|h|h|h|h|h <;> simp [selectUop, State.dw, h] at hf <;> subst hf <;> cases hx <;> simp [Outputs.quiet]
  · rcases fetch_probe_cases hp hf with ⟨a, b, hi | hi | hi | hi | hi⟩ | ⟨a, hi⟩ | ⟨l, hi⟩ | hi <;> subst hi
    · cases hx; simp [Outputs.quiet]
    · simp only [exec, execRotl32] at hx
      split at hx
      · cases hx; simp [Outputs.quiet]
      · cases hx
    · cases hx; simp [Outputs.quiet]
    · cases hx; simp [Outputs.quiet]
    · cases hx; simp [Outputs.quiet]
    · cases hx; simp [Outputs.quiet]
    · cases hx
    · cases hx; simp [Outputs.quiet]
/-- Taking the next entry of the lane loses no beat. -/
theorem Inputs.pending_loadSrc (i : Inputs) (h : i.srcValid = false) : (i.loadSrc).pending = i.pending := by
  unfold Inputs.loadSrc Inputs.pending
  rw [h]
  rcases hl : i.srcLane with _ | ⟨a, l⟩
  · simp
  · cases a with
    | none => simp
    | some w =>
      simp
      apply BitVec.eq_of_getLsbD_eq; intro k hk
      rw [BitVec.getLsbD_append, BitVec.getLsbD_extractLsb', BitVec.getLsbD_extractLsb']
      by_cases h8 : k < 8
      · simp [h8]
      · simp [h8, show k - 8 < 2 by omega, show 8 + (k - 8) = k by omega]
/-- R226, R230: the end of a step loses no beat. -/
theorem Inputs.pending_tick (o : Outputs) (i : Inputs) (hr : i.rst = none) :
    (i.tick o).pending = (i.nextSrc o.srcAccept).pending := by
  have h1 : i.reattach = i := by unfold Inputs.reattach; rw [hr]
  unfold Inputs.tick; rw [h1]
  generalize i.nextSrc o.srcAccept = j
  have h2 : ∀ j : Inputs, j.loadRst.pending = j.pending := by
    intro j; unfold Inputs.loadRst Inputs.pending; split <;> rfl
  have h3 : ∀ j : Inputs, j.loadCmd.pending = j.pending := by
    intro j; unfold Inputs.loadCmd Inputs.pending; split <;> rfl
  rw [h2]; unfold Inputs.nextCmd; split
  · rfl
  · rw [h3]
/-- R226: what the source lines show at the end of a step. -/
theorem Inputs.tick_src (o : Outputs) (i : Inputs) (hr : i.rst = none) :
    (i.tick o).srcValid = (i.nextSrc o.srcAccept).srcValid ∧ (i.tick o).srcKind = (i.nextSrc o.srcAccept).srcKind ∧ (i.tick o).srcData = (i.nextSrc o.srcAccept).srcData := by
  have h1 : i.reattach = i := by unfold Inputs.reattach; rw [hr]
  unfold Inputs.tick; rw [h1]
  generalize i.nextSrc o.srcAccept = j
  unfold Inputs.loadRst Inputs.nextCmd Inputs.loadCmd
  (repeat' split) <;> simp

end Sys2Proof.Machine
end

