-- ==== Sys2Proof/Laws/WordUnit.lean ====
section
/-! SUPPORT. The Word primitives in the library's spelling (40_word.md). -/

namespace Sys2Proof.Machine

/-- R101: ADD32 is the wrapping addition. -/
theorem add32_eq_add (a b : Word) : add32 a b = a + b := by
  apply BitVec.eq_of_toNat_eq
  simp [add32, BitVec.toNat_add]

/-- R102: ROTL32 is the left rotation. -/
theorem rotl32_eq_rotateLeft (a : Word) (n : Fin 32) : rotl32 a n = a.rotateLeft n.val := by
  apply BitVec.eq_of_toNat_eq
  unfold rotl32
  have hn := n.isLt
  split
  · rename_i h
    have ha : a.toNat < 2 ^ 32 := a.isLt
    have h2 : (2 : Nat) ^ 32 = 4294967296 := by norm_num
    simp [h, Nat.shiftRight_eq_div_pow, Nat.div_eq_of_lt (h2 ▸ ha), Nat.mod_eq_of_lt (h2 ▸ ha)]
  · rename_i h
    have ha : a.toNat < 2 ^ 32 := a.isLt
    have hlow : a.toNat / 2 ^ (32 - n.val) < 2 ^ n.val := by
      rw [Nat.div_lt_iff_lt_mul (by positivity), ← Nat.pow_add]
      have : n.val + (32 - n.val) = 32 := by omega
      rw [this]; exact ha
    have hhigh : a.toNat * 2 ^ n.val % 2 ^ 32 = a.toNat % 2 ^ (32 - n.val) * 2 ^ n.val := by
      have : (2 : Nat) ^ 32 = 2 ^ (32 - n.val) * 2 ^ n.val := by
        rw [← Nat.pow_add]; congr 1; omega
      rw [this, Nat.mul_mod_mul_right]
    rw [BitVec.toNat_ofNat, BitVec.toNat_rotateLeft, Nat.mod_eq_of_lt hn, Nat.shiftLeft_eq, Nat.shiftRight_eq_div_pow,
      hhigh, ← Nat.shiftLeft_eq, Nat.shiftLeft_add_eq_or_of_lt hlow]
    apply Nat.mod_eq_of_lt
    apply Nat.or_lt_two_pow
    · rw [Nat.shiftLeft_eq, ← hhigh]; exact Nat.mod_lt _ (by positivity)
    · exact lt_of_lt_of_le hlow (Nat.pow_le_pow_right (by decide) (by omega))

end Sys2Proof.Machine
end

