-- ==== Sys2Proof/Machine/Script.lean ====
section
/-! DEFINITION. The script notation of 30_encoding.md R91: what the host and the byte source offer, item by item. The
two lanes are independent; `RUN` lets the sequencer step until it holds or waits. `EXPECT` is a check, not an item. How
many steps the sequencer takes between items is the model's choice (log 25). -/

namespace Sys2Proof.Machine

/-- R91. `cmd` and `beat` are the raw forms of a command and a beat (reserved codes have no name of their own). -/
inductive ScriptItem where
  | reset
  | cmd (c : BitVec 2)
  | beat (w : BitVec 10)
  | run
deriving DecidableEq, Repr

/-- R91: `NOP`. -/
def scriptNop : List ScriptItem := [.cmd 0b00]

/-- R91: `START`. -/
def scriptStart : List ScriptItem := [.cmd 0b01]

/-- R91: `DATA b`, encoding `0x000 + b`. -/
def scriptData (b : Byte) : List ScriptItem := [.beat (b.setWidth 10)]

/-- R91: `EOS`. -/
def scriptEos : List ScriptItem := [.beat 0x100]

/-- R91: `ERR`. -/
def scriptErr : List ScriptItem := [.beat 0x200]

/-- R91: `BYTES b0 b1 ...`. -/
def scriptBytes (bs : List Byte) : List ScriptItem := bs.flatMap scriptData

/-- R91: `REPEAT n DATA b`. -/
def scriptRepeat (n : Nat) (b : Byte) : List ScriptItem := scriptBytes (List.replicate n b)

/-- A port that is free takes the next entry of its lane at once, without a step. -/
def State.settle (s : State) : State :=
  { s with inp := (s.inp.nextSrc false).nextCmd false }

/-- R91: "until it holds or waits": nothing is about to happen before something else is offered. -/
def State.quiescent (s : State) : Bool :=
  s.inp.rst.isNone && s.inp.rstLane.isEmpty && s.probe.isNone && !s.takesCommand &&
  (s.inp.cmdValid || s.inp.cmdLane.isEmpty) && (s.inp.srcValid || s.inp.srcLane.isEmpty) &&
  match selectUop s.dw with
  | .seqHoldIdle | .seqHoldDone | .seqHoldFault | .padWait => true
  | _ => false

/-- R91: `RUN`, with a bound on the number of steps; where the bound is met first, the state reached is the answer
(DESIGN CHOICE, log 25). -/
def runUntilQuiescent : Nat → State → Result
  | 0, s => .next s
  | n + 1, s =>
    if s.quiescent then .next s
    else match step s with
      | .next s' => runUntilQuiescent n s'
      | r => r

/-- R91: one item of a script; `fuel` bounds each `RUN`. R91 says that the sequencer runs by itself between items and
leaves open how many steps it takes there. DESIGN CHOICE (log 25): it takes none except in `RUN` and `RESET`, so what was
offered before a `RESET` with no `RUN` between is still pending after it, and `RESET` withdraws no offer. -/
def runItem (fuel : Nat) (i : ScriptItem) (s : State) : Result :=
  match i with
  | .reset => step { s with inp := { s.inp with rst := some { cmd := none, src := none } } }
  | .cmd c => .next { s with inp := { s.inp with cmdLane := s.inp.cmdLane ++ [some c] } }.settle
  | .beat w => .next { s with inp := { s.inp with srcLane := s.inp.srcLane ++ [some w] } }.settle
  | .run => runUntilQuiescent fuel s

/-- A whole script. -/
def runScript (fuel : Nat) : List ScriptItem → State → Result
  | [], s => .next s
  | i :: is, s =>
    match runItem fuel i s with
    | .next s' => runScript fuel is s'
    | r => r

end Sys2Proof.Machine
end

