-- ==== Sys2Proof/Tests/Slice0.lean ====
section
/-! SUPPORT. The model's own tests. Expected values come from the spec: 95_test_vectors.md (section given at each test)
or the examples of the rules. The witnesses (`witness_…`) show states that meet the hypotheses of the statements. -/

namespace Sys2Proof.Tests

open Sys2Proof.Machine

/-! ## Helpers -/

/-- A state in phase `p`, everything else as after reset. -/
def inPhase (p : Phase) : State := { State.reset with ph := p }

/-- In phase `FILL` with `FILL` and `COUNT` as given. -/
def filling (fill count : Nat) : State :=
  { State.reset with ph := .fill, fill := BitVec.ofNat 7 fill, count := BitVec.ofNat 61 count }

/-- In phase `p` with index `t`. -/
def indexed (p : Phase) (t : Nat) : State := { State.reset with ph := p, t := BitVec.ofNat 7 t }

def isNext : Result → Bool
  | .next _ => true
  | _ => false

/-- The next state, or the state itself where there is none. -/
def nextOr (s : State) : Result → State
  | .next t => t
  | _ => s

/-- The state after one instruction. -/
def ran (i : Instr) (s : State) : State := nextOr s (exec i s)

/-- The state after one step. -/
def stepped (s : State) : State := nextOr s (step s)

theorem eq_next_of_isNext {r : Result} (s : State) (h : isNext r = true) : r = .next (nextOr s r) := by
  cases r <;> first | rfl | cases h

/-- The five words of the digest state, the five working variables. -/
def words (h : Digest) : List Word := [h.h0, h.h1, h.h2, h.h3, h.h4]
def works (v : Work) : List Word := [v.a, v.b, v.c, v.d, v.e]

/-! ## WellFormed: the one check, and a term it refuses -/

theorem test_wellFormed_refuses_amount_32 : wellFormed (.rotl32 0x12345678 32) = false := by decide
theorem test_wellFormed_takes_amount_31 : wellFormed (.rotl32 0x12345678 31) = true := by decide

/-! ## Decode: every constructor from a word written out from the encoding (R81, R82, R86, R87) -/

theorem test_decode_cmd :
    decode .cmd 0b00 = .ok .cmdNop ∧ decode .cmd 0b01 = .ok .cmdStart ∧
    decode .cmd 0b10 = .ok (.cmdReserved false) ∧ decode .cmd 0b11 = .ok (.cmdReserved true) := by decide

theorem test_decode_beat :
    decode .beat 0b00_10000000 = .ok (.beatData 0x80) ∧ decode .beat 0b01_00000000 = .ok (.beatEos 0x00) ∧
    decode .beat 0b10_00000001 = .ok (.beatErr 0x01) ∧ decode .beat 0b11_10100101 = .ok (.beatReserved 0xa5) := by decide

/-- 95 §2.9, fields PH EXH OWED FULL HI BK BV Q TOV CNTMAX TLO. -/
theorem test_decode_holds :
    decode .uop 0b0000_0_0_0_0_00_0_00_0_0_1 = .ok .seqHoldIdle ∧
    decode .uop 0b1000_1_0_0_0_00_0_11_0_0_0 = .ok .seqHoldDone ∧
    decode .uop 0b1111_0_0_0_0_00_1_11_0_0_0 = .ok .seqHoldFault := by decide

theorem test_decode_padNext :
    decode .uop 0b0001_1_0_0_0_00_0_11_0_0_0 = .ok .padNextExh ∧
    decode .uop 0b0001_0_1_0_1_00_0_11_0_0_0 = .ok .padNextOwed ∧
    decode .uop 0b0001_0_0_0_0_00_0_00_0_0_1 = .ok .padNextRead := by decide

theorem test_decode_fill :
    decode .uop 0b0010_0_0_1_1_01_1_00_0_0_1 = .ok .padFull ∧
    decode .uop 0b0010_0_0_0_0_00_0_00_0_0_1 = .ok .padWait ∧
    decode .uop 0b0010_0_0_0_1_00_1_00_0_0_1 = .ok .padData ∧
    decode .uop 0b0010_0_0_0_1_00_1_11_0_1_0 = .ok .padDataOvf ∧
    decode .uop 0b0010_0_0_0_0_01_1_00_0_0_1 = .ok .padEosFit ∧
    decode .uop 0b0010_0_0_0_1_01_1_00_0_0_1 = .ok .padEosSpill ∧
    decode .uop 0b0010_0_0_0_0_10_1_11_0_0_0 = .ok .padErr ∧
    decode .uop 0b0010_0_0_0_0_11_1_00_0_0_1 = .ok .padErr := by decide

theorem test_decode_engine :
    decode .uop 0b0011_1_0_0_0_00_0_00_0_0_1 = .ok .ceLoad ∧
    decode .uop 0b0100_1_0_0_0_00_0_00_0_0_0 = .ok .ceExpand ∧
    decode .uop 0b0101_1_0_0_0_00_0_11_0_0_0 = .ok .ceInitv ∧
    decode .uop 0b0110_1_0_0_0_00_0_00_0_0_1 = .ok .ceRoundF0 ∧
    decode .uop 0b0110_0_0_0_0_00_0_01_0_0_0 = .ok .ceRoundF1 ∧
    decode .uop 0b0110_0_0_0_0_00_0_10_0_0_0 = .ok .ceRoundF2 ∧
    decode .uop 0b0110_0_0_0_0_00_0_11_0_0_0 = .ok .ceRoundF3 ∧
    decode .uop 0b0111_1_0_0_0_00_0_11_0_0_0 = .ok .ceAcc := by decide

theorem test_decode_invariant :
    decode .uop 0b0100_0_0_0_0_00_0_00_1_0_0 = .ok .seqInvExpandHigh ∧
    decode .uop 0b0100_0_0_0_0_00_0_00_0_0_1 = .ok .seqInvExpandLow ∧
    decode .uop 0b0110_0_0_0_0_00_0_00_1_0_0 = .ok .seqInvRoundHigh ∧
    decode .uop 0b1001_0_0_0_0_00_0_00_0_0_1 = .ok .seqInvPh9 ∧
    decode .uop 0b1011_0_0_0_0_00_0_00_0_0_1 = .ok .seqInvPhAB ∧
    decode .uop 0b1100_0_0_0_0_00_0_00_0_0_1 = .ok .seqInvPhCD ∧
    decode .uop 0b1110_0_0_0_0_00_0_00_0_0_1 = .ok .seqInvPhE := by decide

/-- R87: the function select; the operand words in the places of log 10. -/
theorem test_decode_prim :
    decode .prim (0b000 + 0x67452301 * 2 ^ 8 + 0xefcdab89 * 2 ^ 40) = .ok (.add32 0x67452301 0xefcdab89) ∧
    decode .prim (0b001 + 0x67452301 * 2 ^ 8 + 5 * 2 ^ 40) = .ok (.rotl32 0x67452301 5) ∧
    decode .prim (0b010 + 1 * 2 ^ 8 + 2 * 2 ^ 40) = .ok (.and32 1 2) ∧
    decode .prim (0b011 + 1 * 2 ^ 8 + 2 * 2 ^ 40) = .ok (.or32 1 2) ∧
    decode .prim (0b100 + 1 * 2 ^ 8 + 2 * 2 ^ 40) = .ok (.xor32 1 2) ∧
    decode .prim (0b101 + 1 * 2 ^ 8) = .ok (.not32 1) ∧
    decode .prim 0b110 = .ok (.primReserved false) ∧ decode .prim 0b111 = .ok (.primReserved true) := by decide

theorem test_decode_fmt : decode .fmt 0 = .ok .fmtHex ∧ decode .fmt 1 = .error .width := by decide

/-- The table's own numbering: a CMD, a BEAT, a UOP, a PRIM and the row without bits. -/
theorem test_decodeTableWord :
    decodeTableWord 2 0b01 = some .cmdStart ∧ decodeTableWord 10 0x2ff = some (.beatErr 0xff) ∧
    decodeTableWord 16 0x7000 = some .ceAcc ∧ decodeTableWord 3 0b100 = some (.xor32 0 0) ∧
    decodeTableWord 0 0 = some .fmtHex := by decide

/-- 95 §2.9: the dispatch word of some states. -/
theorem test_dispatchWord :
    State.reset.dispatchWord = 0x0001 ∧ ((filling 56 0).offerBeat 0b01 0).dispatchWord = 0x2161 ∧
    ((filling 64 0).offerBeat 0b01 0).dispatchWord = 0x2361 ∧
    ({ filling 63 (2 ^ 61 - 1) with t := 79 }.offerBeat 0b00 0).dispatchWord = 0x213A ∧
    (indexed .expand 80).dispatchWord = 0x4004 ∧ (indexed .round 59).dispatchWord = 0x6010 := by decide

/-! ## The Word unit (95 §2.1) -/

theorem test_add32_wraps : add32 0xffffffff 0x00000001 = 0x00000000 ∧ add32 0x67452301 0xefcdab89 = 0x5712ce8a := by decide
theorem test_rotl32_ends : rotl32 0x80000000 1 = 0x00000001 ∧ rotl32 0x00000001 31 = 0x80000000 := by decide
theorem test_rotl32_amounts : rotl32 0x67452301 5 = 0xe8a4602c ∧ rotl32 0xefcdab89 30 = 0x7bf36ae2 := by decide
theorem test_and32 : and32 0xf0f0f0f0 0x3c3c3c3c = 0x30303030 := by decide
theorem test_or32 : or32 0xf0f0f0f0 0x3c3c3c3c = 0xfcfcfcfc := by decide
theorem test_xor32 : xor32 0xf0f0f0f0 0x3c3c3c3c = 0xcccccccc := by decide
theorem test_not32 : not32 0xf0f0f0f0 = 0x0f0f0f0f := by decide

/-! ## Host commands and reset (95 §2.11, §2.10) -/

/-- `DONE`, `FILL = 3`, `T = 79`, START: the initial state is loaded, `FILL` and `T` are not touched. -/
theorem test_start_in_done :
    let s := ran .cmdStart { State.reset with ph := .done, count := 3, exh := true, fill := 3, t := 79 }
    s.ph = .req ∧ words s.h = [0x67452301, 0xefcdab89, 0x98badcfe, 0x10325476, 0xc3d2e1f0] ∧ s.count = 0 ∧
      s.exh = false ∧ s.fill = 3 ∧ s.t = 79 ∧ s.out.cmdAccept = true := by decide

theorem test_start_in_fault :
    let s := ran .cmdStart { State.reset with ph := .fault, cause := .srcError }
    s.ph = .fault ∧ s.cause = .srcError ∧ s.out.cmdAccept = false := by decide

theorem test_nop_in_fault :
    let s := ran (.cmdReserved true) { State.reset with ph := .fault, cause := .srcError }
    s.ph = .fault ∧ s.out.cmdAccept = true := by decide

theorem test_reset_in_round :
    let s := stepped { indexed .round 37 with
      count := 130, fill := 2, inp := { Inputs.silent with rst := some { cmd := none, src := none } } }
    s.ph = .idle ∧ s.cause = .none ∧ s.count = 0 ∧ s.fill = 0 ∧ s.t = 0 ∧ s.status = 0x00 := by decide

/-! ## The padder (95 §2.2, §2.9, §2.10; 41_padder.md examples) -/

theorem test_data_first_byte :
    let s := ran .padData ((filling 0 0).offerBeat 0b00 0x61)
    s.buf = [(0, 0x61)] ∧ s.fill = 1 ∧ s.count = 1 ∧ s.out.srcAccept = true := by decide

/-- A data byte 0x00 is stored as data; the canonical memory lists no cell for it. -/
theorem test_data_zero_byte :
    let s := ran (.beatData 0x00) { filling 1 1 with buf := [(0, 0x61), (1, 0x62)] }
    s.buf = [(0, 0x61)] ∧ s.fill = 2 := by decide

/-- "abc": 61 62 63 80, zeros, length 24 bits. -/
theorem test_eos_fit_abc :
    let s := ran .padEosFit ({ filling 3 3 with buf := [(0, 0x61), (1, 0x62), (2, 0x63)] }.offerBeat 0b01 0)
    s.buf = [(0, 0x61), (1, 0x62), (2, 0x63), (3, 0x80), (63, 0x18)] ∧ s.exh = true ∧ s.ph = .load ∧ s.blkValid = true := by
  decide

/-- `FILL = 55`: the terminator in byte 55, the length beside it. -/
theorem test_eos_fit_55 : (ran (.beatEos 0xff) (filling 55 55)).buf = [(55, 0x80), (62, 0x01), (63, 0xb8)] := by decide

theorem test_eos_spill_63 :
    let s := ran .padEosSpill ((filling 63 63).offerBeat 0b01 0)
    s.buf = [(63, 0x80)] ∧ s.owed = true ∧ s.exh = false ∧ s.ph = .load := by decide

/-- The length-only block after 56 bytes, and the largest length. -/
theorem test_next_owed_56 :
    let s := ran .padNextOwed { inPhase .req with owed := true, count := 56, buf := [(56, 0x80)] }
    s.buf = [(62, 0x01), (63, 0xc0)] ∧ s.exh = true ∧ s.owed = false := by decide
theorem test_next_owed_largest :
    (ran .padNextOwed { inPhase .req with owed := true, count := countMax }).buf =
      [(56, 0xff), (57, 0xff), (58, 0xff), (59, 0xff), (60, 0xff), (61, 0xff), (62, 0xff), (63, 0xf8)] := by decide

theorem test_err_at_six :
    let s := ran .padErr ((filling 6 70).offerBeat 0b10 0)
    s.status = 0x6f ∧ s.fill = 6 ∧ s.count = 70 ∧ s.blkValid = false ∧ s.out.srcAccept = true := by decide

theorem test_overflow_byte :
    let s := stepped ((filling 63 (2 ^ 61 - 1)).offerBeat 0b00 0x00)
    s.status = 0xaf ∧ s.fill = 63 ∧ s.count = countMax ∧ s.buf = [] := by decide

theorem test_reserved_beat_is_an_error :
    (stepped ((filling 0 0).offerBeat 0b11 0xa5)).status = 0x6f := by decide

theorem test_beat_pending_in_idle :
    let s := ran (.beatData 0x61) State.reset
    s.ph = .idle ∧ s.out.srcAccept = false ∧ s.inp.srcValid = true := by decide

/-- R180: the block on the tap, byte 0 at the top. -/
theorem test_tap_abc :
    let x := (ran .padFull { filling 64 64 with buf := [(0, 0x61), (63, 0x18)] }).blkData
    x.extractLsb' 504 8 = 0x61 ∧ x.extractLsb' 0 8 = 0x18 := by decide +kernel

/-! ## The engine (95 §2.3 to §2.6; 42_compress.md examples) -/

theorem test_load_abc :
    let s := ran .ceLoad { inPhase .load with buf := [(0, 0x61), (1, 0x62), (2, 0x63), (3, 0x80), (63, 0x18)] }
    s.w[0] = 0x61626380 ∧ s.w[1] = 0 ∧ s.w[15] = 0x00000018 ∧ s.t = 16 := by decide

theorem test_expand_16 :
    let s := ran .ceExpand { indexed .expand 16 with w := State.reset.w.set 0 0x61626380 }
    s.w[16] = 0xc2c4c700 ∧ s.t = 17 ∧ s.ph = .expand := by decide

theorem test_expand_last :
    let s := ran .ceExpand (indexed .expand 79)
    s.t = 79 ∧ s.ph = .initv := by decide

theorem test_initv :
    let s := ran .ceInitv { indexed .initv 79 with h := digestIV }
    works s.v = [0x67452301, 0xefcdab89, 0x98badcfe, 0x10325476, 0xc3d2e1f0] ∧ s.t = 0 ∧ s.ph = .round := by decide

theorem test_round_0 :
    let s := ran .ceRoundF0 { indexed .round 0 with
      w := State.reset.w.set 0 0x61626380
      v := { a := 0x67452301, b := 0xefcdab89, c := 0x98badcfe, d := 0x10325476, e := 0xc3d2e1f0 } }
    works s.v = [0x0116fc33, 0x67452301, 0x7bf36ae2, 0x98badcfe, 0x10325476] ∧ s.t = 1 := by decide

theorem test_round_20 :
    let s := ran .ceRoundF1 { indexed .round 20 with
      v := { a := 0xfd9e1d7d, b := 0xdc64901d, c := 0x20aa99ca, d := 0xd3a49608, e := 0xc82f758b } }
    works s.v = [0x1a37b0ca, 0xfd9e1d7d, 0x77192407, 0x20aa99ca, 0xd3a49608] ∧ s.t = 21 := by decide

theorem test_round_40 :
    let s := ran .ceRoundF2 { indexed .round 40 with
      w := State.reset.w.set 40 0xd2e138c4
      v := { a := 0x32de1cba, b := 0x4c986405, c := 0xf718e5cf, d := 0x03d447f6, e := 0xf72eec32 } }
    works s.v = [0xfc87dedf, 0x32de1cba, 0x53261901, 0xf718e5cf, 0x03d447f6] ∧ s.t = 41 := by decide

theorem test_round_79 :
    let s := ran .ceRoundF3 { indexed .round 79 with
      w := State.reset.w.set 79 0x822e0879
      v := { a := 0x5738d5e1, b := 0x860d21cc, c := 0x681e6df6, d := 0xd8fdf6ad, e := 0xd7b9da25 } }
    works s.v = [0x42541b35, 0x5738d5e1, 0x21834873, 0x681e6df6, 0xd8fdf6ad] ∧ s.t = 79 ∧ s.ph = .acc := by decide

theorem test_roundFn_quadrants :
    [0, 19, 20, 39, 40, 59, 60, 79].map (fun t => roundFn t 0xffff0000 0xff00ff00 0xf0f0f0f0) =
      [0xff00f0f0, 0xff00f0f0, 0xf00f0ff0, 0xf00f0ff0, 0xfff0f000, 0xfff0f000, 0xf00f0ff0, 0xf00f0ff0] := by decide

/-- "abc", and the second block of the 56-byte message, where `H` is not the initial state. -/
theorem test_acc_abc :
    words (ran .ceAcc { inPhase .acc with
      h := digestIV, v := { a := 0x42541b35, b := 0x5738d5e1, c := 0x21834873, d := 0x681e6df6, e := 0xd8fdf6ad } }).h =
      [0xa9993e36, 0x4706816a, 0xba3e2571, 0x7850c26c, 0x9cd0d89d] := by decide
theorem test_acc_second_block :
    words (ran .ceAcc { inPhase .acc with
      h := { h0 := 0xf4286818, h1 := 0xc37b27ae, h2 := 0x0408f581, h3 := 0x84677148, h4 := 0x4a566572 }
      v := { a := 0x906fd62c, b := 0x58c0aac0, c := 0xb6a55520, d := 0x74e9b89d, e := 0x9af00b7f } }).h =
      [0x84983e44, 0x1c3bd26e, 0xbaae4aa1, 0xf95129e5, 0xe54670f1] := by decide

theorem test_invariant_fault :
    (stepped (indexed .round 80)).status = 0xef ∧ (stepped (inPhase .rsv9)).status = 0xef := by decide

/-! ## Read-out (95 §2.8, §2.9) -/

def shown : Digest where
  h0 := 0x00000000
  h1 := 0x0000000a
  h2 := 0xffffffff
  h3 := 0x12345678
  h4 := 0x9abcdef0

theorem test_hex_characters :
    shown.hexChars = "000000000000000affffffff123456789abcdef0".toList := by decide

/-- The `hex` port: characters `a`, `9` first, `d` last. -/
theorem test_hex_port :
    (ran .fmtHex { inPhase .done with
      h := { h0 := 0xa9993e36, h1 := 0x4706816a, h2 := 0xba3e2571, h3 := 0x7850c26c, h4 := 0x9cd0d89d } }).out.hex.map
        (fun x => (x.extractLsb' 312 8, x.extractLsb' 304 8, x.extractLsb' 0 8)) = some (0x61, 0x39, 0x64) := by
  decide +kernel

theorem test_digest_bytes :
    shown.bytes = [0x00, 0x00, 0x00, 0x00, 0x00, 0x00, 0x00, 0x0a, 0xff, 0xff, 0xff, 0xff, 0x12, 0x34, 0x56, 0x78,
      0x9a, 0xbc, 0xde, 0xf0] := by decide

theorem test_status_values :
    [Phase.idle, .req, .fill, .load, .expand, .initv, .round, .acc, .done].map (fun p => (inPhase p).status) =
      [0x00, 0x01, 0x02, 0x03, 0x04, 0x05, 0x06, 0x07, 0x18] := by decide

/-! ## Scripts (95 §3; the start of program P2) -/

/-- START, three bytes offered, `RUN`: the core waits in `FILL` with `FILL = 3`. -/
theorem test_script_waits_for_more :
    let s := nextOr State.reset (runScript 8 (scriptStart ++ scriptBytes [0x61, 0x62, 0x63] ++ [.run]) State.reset)
    s.ph = .fill ∧ s.fill = 3 ∧ s.count = 3 := by decide

/-! ## Witnesses: states and operands that meet the hypotheses of the statements -/

/-- The invariants as a Boolean, to show them of a state written out. -/
def invB (s : State) : Bool :=
  decide (s.fill.toNat ≤ 64) && (s.ph != .expand || decide (16 ≤ s.t.toNat ∧ s.t.toNat ≤ 79)) &&
  (s.ph != .round || decide (s.t.toNat ≤ 79)) && !(s.owed && s.exh) && decide (s.cause ≠ .none ↔ s.ph = .fault) &&
  s.cause != .invariant && decide (s.ph ∈ [Phase.idle, .req, .fill, .load, .expand, .initv, .round, .acc, .done, .fault]) &&
  (!s.exh || s.ph != .fill) && (!s.owed || s.ph != .fill) && s.buf.wf

theorem inv_of_invB {s : State} (h : invB s = true) : Inv s := by
  simp only [invB, Bool.and_eq_true, Bool.or_eq_true, bne_iff_ne, decide_eq_true_eq, Bool.not_eq_true',
    Bool.and_eq_false_iff] at h
  obtain ⟨⟨⟨⟨⟨⟨⟨⟨⟨h1, h2⟩, h3⟩, h4⟩, h5⟩, h6⟩, h7⟩, h8⟩, h9⟩, h10⟩ := h
  exact
    { fill := h1
      expandT := fun hp => h2.resolve_left (fun hn => hn hp)
      roundT := fun hp => h3.resolve_left (fun hn => hn hp)
      flags := fun hf => by rcases h4 with h | h <;> simp_all
      causeIff := h5
      noInvariant := h6
      legal := h7
      finished := fun he hp => by rcases h8 with h | h <;> simp_all
      reading := fun he hp => by rcases h9 with h | h <;> simp_all
      bufWf := h10 }

/-- A legal state, not about to run a unit on its own, with a next state. -/
theorem legal_step {s : State} (h : invB s = true) (hp : s.probe = none) (hn : isNext (step s) = true) :
    Inv s ∧ NoProbe s ∧ step s = .next (stepped s) := ⟨inv_of_invB h, hp, eq_next_of_isNext s hn⟩

/-- A beat of kind `k` at the source lines. -/
def withBeat (k : BitVec 2) (s : State) : State := s.offerBeat k 0x61

/-- `rst` asserted. -/
def withReset (s : State) : State := { s with inp := { s.inp with rst := some { cmd := none, src := none } } }

theorem witness_DecodeOfEncode :
    ∀ i ∈ [Instr.rotl32 0xffffffff 31, .beatReserved 0xff, .cmdReserved true, .not32 0xffffffff, .primReserved true, .fmtHex],
      wellFormed i = true := by decide

theorem witness_PlacedInstructionIsFetched :
    wellFormed .ceRoundF3 = true ∧ wellFormed (.beatEos 0xff) = true ∧
    ∀ b, Instr.ceRoundF3 ≠ .beatData b ∧ Instr.ceRoundF3 ≠ .beatEos b ∧ Instr.ceRoundF3 ≠ .beatErr b ∧
      Instr.ceRoundF3 ≠ .beatReserved b := by simp [wellFormed]

/-- A next state, a stop on a byte outside `BUF`, a refusal; a command, no command. -/
theorem witness_StepRunsTheDecodedInstruction :
    ((withBeat 0b00 (filling 63 63)).fetch = .ok .padData ∧ isNext (exec .padData (withBeat 0b00 (filling 63 63))) = true) ∧
    ((withBeat 0b00 (filling 65 65)).fetch = .ok .padData ∧
      exec .padData (withBeat 0b00 (filling 65 65)) = .fault .bufRange) ∧
    (({ State.reset with probe := some (.prim 6) } : State).fetch = .ok (.primReserved false) ∧
      exec (.primReserved false) State.reset = .refused .reservedPrim) ∧
    (State.reset.offerCmd 0b01).takesCommand = true ∧ ((inPhase .acc).offerCmd 0b01).takesCommand = false := by
  refine ⟨by decide, ⟨by decide, rfl⟩, ⟨by decide, rfl⟩, by decide, by decide⟩

/-- The states of the clauses about the sequencer's own steps, at the ends of every range. -/
theorem witness_TransitionTable_sequencer :
    ∀ s ∈ [{ inPhase .req with exh := true }, { inPhase .req with owed := true }, inPhase .req, filling 64 64,
        withBeat 0b00 (filling 63 (2 ^ 61 - 2)), withBeat 0b00 (filling 63 (2 ^ 61 - 1)), withBeat 0b01 (filling 0 0),
        withBeat 0b01 (filling 55 55), withBeat 0b01 (filling 56 56), withBeat 0b01 (filling 63 63),
        withBeat 0b10 (filling 0 0), withBeat 0b11 (filling 63 63), filling 63 63, inPhase .load, indexed .expand 16,
        indexed .expand 78, indexed .expand 79, inPhase .initv, indexed .round 0, indexed .round 19, indexed .round 20,
        indexed .round 39, indexed .round 40, indexed .round 59, indexed .round 60, indexed .round 78, indexed .round 79,
        indexed .expand 80, indexed .expand 15, indexed .round 80, indexed .round 127, inPhase .acc],
      SequencerSteps s ∧ s.fill.toNat ≤ 64 := by
  unfold SequencerSteps; decide

theorem witness_TransitionTable_host :
    ((withReset (indexed .round 37)).inp.rst ≠ none ∧ (withReset (indexed .round 37)).probe = none) ∧
    (StartOffered (State.reset.offerCmd 0b01) ∧ StartOffered ((inPhase .done).offerCmd 0b01)) ∧
    (¬ StartOffered State.reset ∧ ¬ StartOffered ((inPhase .done).offerCmd 0b00)) ∧
    (BeatOffered 0b00 (withBeat 0b00 (filling 63 0)) ∧ BeatOffered 0b11 (withBeat 0b11 (filling 63 0))) := by
  unfold StartOffered BeatOffered; decide

theorem witness_ResetStepClearsControlState :
    (withReset (withBeat 0b00 (filling 63 130))).inp.rst ≠ none ∧ (withReset (inPhase .fault)).inp.rst ≠ none := by decide

/-- Legal states at the ends of the ranges, each with a next state (also a reset step, and a faulting one). -/
theorem witness_StepKeepsInvariants :
    ∀ s ∈ [State.reset, withBeat 0b00 (filling 63 63), filling 64 64, withBeat 0b01 (filling 63 63), indexed .expand 16,
        indexed .expand 79, indexed .round 79, withBeat 0b10 (filling 0 0), withReset (indexed .round 37)],
      Inv s ∧ NoProbe s ∧ step s = .next (stepped s) := by
  intro s hs
  have h : ∀ s ∈ [State.reset, withBeat 0b00 (filling 63 63), filling 64 64, withBeat 0b01 (filling 63 63), indexed .expand 16,
      indexed .expand 79, indexed .round 79, withBeat 0b10 (filling 0 0), withReset (indexed .round 37)],
      invB s = true ∧ s.probe = none ∧ isNext (step s) = true := by decide
  exact legal_step (h s hs).1 (h s hs).2.1 (h s hs).2.2

theorem witness_LegalStateAlwaysSteps : Inv (indexed .expand 79) ∧ NoProbe (indexed .expand 79) :=
  ⟨inv_of_invB (by decide), rfl⟩

theorem witness_InvariantFaultUnreachable :
    Inv (indexed .round 79) ∧ NoProbe (indexed .round 79) ∧ (indexed .round 79).fetch = .ok .ceRoundF3 :=
  ⟨inv_of_invB (by decide), rfl, by decide⟩

/-- Three bytes in the buffer, a fourth offered. -/
theorem witness_StepKeepsZeroBeyondFill :
    let s := withBeat 0b00 { filling 3 3 with buf := [(0, 0x61), (1, 0x62), (2, 0x63)] }
    Inv s ∧ s.ph = .fill ∧ ZeroBeyondFill s ∧ step s = .next (stepped s) := by
  refine ⟨inv_of_invB (by decide), rfl, fun _ a ha => ?_, eq_next_of_isNext _ (by decide)⟩
  have ha : 3 ≤ a := ha
  show Memory.read [(0, 0x61), (1, 0x62), (2, 0x63)] a = 0
  simp [Memory.read, Memory.unlisted, show a ≠ 0 by omega, show a ≠ 1 by omega, show a ≠ 2 by omega]

/-- For each element an instruction of its row that does change it. -/
theorem witness_WrittenOnlyByTheListedInstructions :
    isNext (exec .cmdStart State.reset) = true ∧ (ran .cmdStart State.reset).h ≠ State.reset.h ∧
    (ran .ceInitv { State.reset with h := digestIV }).v ≠ State.reset.v ∧
    (ran .ceLoad { State.reset with buf := [(0, 0x61)] }).w ≠ State.reset.w ∧
    (ran .padEosFit (filling 0 0)).buf ≠ (filling 0 0).buf ∧ (ran .padData (filling 63 63)).fill ≠ (filling 63 63).fill ∧
    (ran (.beatData 0) (filling 63 63)).count ≠ (filling 63 63).count ∧ (ran .padEosSpill (filling 63 63)).owed ≠ false ∧
    (ran (.beatEos 0) (filling 55 55)).exh ≠ false ∧ (ran .ceRoundF0 (indexed .round 0)).t ≠ 0 ∧
    (ran .padErr (filling 0 0)).cause ≠ .none := by decide

theorem witness_NopAndReservedCommandsChangeNothing :
    ∀ s ∈ [State.reset.offerCmd 0b00, (inPhase .fault).offerCmd 0b10, (indexed .round 79).offerCmd 0b11],
      s.probe = none ∧ s.inp.rst = none ∧ s.inp.cmdValid = true ∧ s.inp.cmd ≠ 0b01 := by decide

theorem witness_StartBeginsAComputation : State.reset.ph = .idle ∧ (inPhase .done).ph = .done := ⟨rfl, rfl⟩

theorem witness_StartIsHeldOutsideIdleAndDone :
    ∀ s ∈ [(indexed .expand 40).offerCmd 0b01, (inPhase .fault).offerCmd 0b01, (filling 0 0).offerCmd 0b01],
      s.ph ≠ .idle ∧ s.ph ≠ .done ∧ s.probe = none ∧ s.inp.rst = none ∧ StartOffered s ∧ step s = .next (stepped s) := by
  have h : ∀ s ∈ [(indexed .expand 40).offerCmd 0b01, (inPhase .fault).offerCmd 0b01, (filling 0 0).offerCmd 0b01],
      s.ph ≠ .idle ∧ s.ph ≠ .done ∧ s.probe = none ∧ s.inp.rst = none ∧ (s.inp.cmdValid = true ∧ s.inp.cmd = 0b01) ∧
        isNext (step s) = true := by decide
  intro s hs
  obtain ⟨h1, h2, h3, h4, h5, h6⟩ := h s hs
  exact ⟨h1, h2, h3, h4, h5, eq_next_of_isNext s h6⟩

/-- A beat accepted at `FILL = 63`; one held at `FILL = 64`, and one held in `IDLE`. -/
theorem witness_BeatsAcceptedOnlyInFillAndNeverDropped :
    (Inv (withBeat 0b00 (filling 63 63)) ∧
      step (withBeat 0b00 (filling 63 63)) = .next (stepped (withBeat 0b00 (filling 63 63))) ∧
      (stepped (withBeat 0b00 (filling 63 63))).out.srcAccept = true) ∧
    (step (withBeat 0b00 (filling 64 64)) = .next (stepped (withBeat 0b00 (filling 64 64))) ∧
      (withBeat 0b00 (filling 64 64)).inp.rst = none ∧ (stepped (withBeat 0b00 (filling 64 64))).out.srcAccept = false ∧
      (withBeat 0b00 (filling 64 64)).inp.srcValid = true) ∧
    (stepped (withBeat 0b01 State.reset)).out.srcAccept = false :=
  ⟨⟨inv_of_invB (by decide), eq_next_of_isNext _ (by decide), by decide⟩,
    ⟨eq_next_of_isNext _ (by decide), rfl, by decide, rfl⟩, by decide⟩

theorem witness_NoBeatAfterEndOfStream :
    ∀ s ∈ [withBeat 0b00 { inPhase .load with exh := true }, withBeat 0b00 { inPhase .req with owed := true }],
      Inv s ∧ (s.exh = true ∨ s.owed = true) ∧ step s = .next (stepped s) := by
  have h : ∀ s ∈ [withBeat 0b00 { inPhase .load with exh := true }, withBeat 0b00 { inPhase .req with owed := true }],
      invB s = true ∧ (s.exh = true ∨ s.owed = true) ∧ isNext (step s) = true := by decide
  intro s hs
  obtain ⟨h1, h2, h3⟩ := h s hs
  exact ⟨inv_of_invB h1, h2, eq_next_of_isNext s h3⟩

theorem witness_BeatsAreConsumedByTheSelectedMicroOperation :
    ∀ s ∈ [withBeat 0b00 (filling 0 0), withBeat 0b00 (filling 63 (2 ^ 61 - 1)), withBeat 0b01 (filling 55 55),
        withBeat 0b01 (filling 56 56), withBeat 0b10 (filling 63 63), withBeat 0b11 (filling 0 0)],
      s.ph = .fill ∧ s.fill.toNat < 64 ∧ s.inp.srcValid = true := by decide

theorem witness_BeatsStayPendingElsewhere :
    State.reset.ph ≠ .fill ∧ (inPhase .fault).ph ≠ .fill ∧ 64 ≤ (filling 64 64).fill.toNat := by decide

/-- The clauses of the two beat statements at the ends of their ranges: 63 with `COUNT` one below and at its largest,
0 and 55, 56 and 63. -/
theorem witness_DataAndEosBeatsFillTheBuffer :
    (∀ s ∈ [filling 0 0, filling 55 55, filling 56 56, filling 63 (2 ^ 61 - 2)],
      s.ph = .fill ∧ s.fill.toNat < 64 ∧ s.buf.wf = true) ∧
    (filling 63 (2 ^ 61 - 2)).count.toNat < 2 ^ 61 - 1 ∧ (filling 0 0).fill.toNat ≤ 55 ∧ (filling 55 55).fill.toNat ≤ 55 ∧
    56 ≤ (filling 56 56).fill.toNat ∧ 56 ≤ (filling 63 63).fill.toNat := by decide

theorem witness_FaultingBeats :
    (filling 63 (2 ^ 61 - 1)).ph = .fill ∧ (filling 63 (2 ^ 61 - 1)).fill.toNat < 64 ∧
    (filling 63 (2 ^ 61 - 1)).count.toNat = 2 ^ 61 - 1 := by decide

theorem witness_PadNextSelection :
    (SequencerSteps { inPhase .req with exh := true, owed := true } ∧
      ({ inPhase .req with exh := true, owed := true } : State).ph = .req) ∧
    SequencerSteps (inPhase .req) ∧ (inPhase .req).exh = false ∧ (inPhase .req).owed = false := by
  unfold SequencerSteps; decide

theorem witness_PadDataStoresOneByte :
    (filling 63 (2 ^ 61 - 2)).fill.toNat < 64 ∧ (filling 63 (2 ^ 61 - 2)).count.toNat < 2 ^ 61 - 1 ∧
    (filling 63 (2 ^ 61 - 2)).buf.wf = true := by decide

theorem witness_PadEosFitAppendsTerminatorAndLength :
    (filling 0 0).fill.toNat ≤ 55 ∧ (filling 55 55).fill.toNat ≤ 55 ∧ (filling 55 55).buf.wf = true := by decide

theorem witness_PadEosSpillAppendsTerminator :
    (56 ≤ (filling 56 56).fill.toNat ∧ (filling 56 56).fill.toNat ≤ 63) ∧
    (56 ≤ (filling 63 63).fill.toNat ∧ (filling 63 63).fill.toNat ≤ 63) ∧ (filling 63 63).buf.wf = true := by decide

theorem witness_FinalBlockBytes :
    ∀ s ∈ [withBeat 0b01 (filling 0 0), withBeat 0b01 (filling 55 55), withBeat 0b01 (filling 56 56),
        withBeat 0b01 (filling 63 63)],
      Inv s ∧ ZeroBeyondFill s ∧ SequencerSteps s ∧ s.ph = .fill ∧ s.fill.toNat < 64 ∧ BeatOffered 0b01 s ∧
        step s = .next (stepped s) := by
  have h : ∀ s ∈ [withBeat 0b01 (filling 0 0), withBeat 0b01 (filling 55 55), withBeat 0b01 (filling 56 56),
      withBeat 0b01 (filling 63 63)],
      invB s = true ∧ s.buf = [] ∧ (s.probe = none ∧ s.inp.rst = none ∧ s.takesCommand = false) ∧ s.ph = .fill ∧
        s.fill.toNat < 64 ∧ (s.inp.srcValid = true ∧ s.inp.srcKind = 0b01) ∧ isNext (step s) = true := by decide
  intro s hs
  obtain ⟨h1, h2, h3, h4, h5, h6, h7⟩ := h s hs
  exact ⟨inv_of_invB h1, fun _ a _ => by rw [h2]; rfl, h3, h4, h5, h6, eq_next_of_isNext s h7⟩

theorem witness_BlockTapShowsEmittedBlocks :
    step (filling 64 64) = .next (stepped (filling 64 64)) ∧ (stepped (filling 64 64)).blkValid = true ∧
    (filling 64 64).inp.rst = none ∧ (filling 64 64).fetch = .ok .padFull ∧ (stepped (filling 63 63)).blkValid = false :=
  ⟨eq_next_of_isNext _ (by decide), by decide, rfl, by decide, by decide⟩

theorem witness_MemWriteThenMemRead :
    (Memory.wf [(0, 0x61)] = true ∧ 56 + 8 ≤ 64 ∧ 2 ^ 64 - 8 < 2 ^ (8 * 8)) ∧ 60 + 4 ≤ 64 ∧ 63 + 1 ≤ 64 ∧
    0xff < 2 ^ (8 * 1) := by decide

theorem witness_EngineSelection :
    ∀ s ∈ [inPhase .load, inPhase .initv, inPhase .acc], SequencerSteps s := by unfold SequencerSteps; decide

theorem witness_CeExpandComputesOneScheduleWord :
    (16 ≤ (indexed .expand 16).t.toNat ∧ (indexed .expand 16).t.toNat ≤ 79) ∧
    (16 ≤ (indexed .expand 79).t.toNat ∧ (indexed .expand 79).t.toNat ≤ 79) ∧
    (indexed .expand 15).t.toNat < 16 ∧ 80 ≤ (indexed .expand 80).t.toNat := by decide

theorem witness_RoundDatapath :
    (indexed .round 0).t.toNat ≤ 19 ∧ (indexed .round 19).t.toNat ≤ 19 ∧ 20 ≤ (indexed .round 20).t.toNat ∧
    (indexed .round 39).t.toNat ≤ 39 ∧ 40 ≤ (indexed .round 40).t.toNat ∧ (indexed .round 59).t.toNat ≤ 59 ∧
    60 ≤ (indexed .round 60).t.toNat ∧ (indexed .round 79).t.toNat ≤ 79 := by decide

/-- The same boundaries for the pure function and the constants; bit 31. -/
theorem witness_RoundFunctionAndConstants :
    [0, 19, 20, 39, 40, 59, 60, 79].all (fun t => decide (t ≤ 79)) = true ∧ 31 < 32 := by decide

theorem witness_FaultsOnlyByTheThreeCauses :
    ∀ s ∈ [withBeat 0b10 (filling 0 0), withBeat 0b11 (filling 63 63), withBeat 0b00 (filling 63 (2 ^ 61 - 1))],
      Inv s ∧ NoProbe s ∧ step s = .next (stepped s) ∧ s.ph ≠ .fault ∧ (stepped s).ph = .fault := by
  have h : ∀ s ∈ [withBeat 0b10 (filling 0 0), withBeat 0b11 (filling 63 63), withBeat 0b00 (filling 63 (2 ^ 61 - 1))],
      invB s = true ∧ s.probe = none ∧ isNext (step s) = true ∧ s.ph ≠ .fault ∧ (stepped s).ph = .fault := by decide
  intro s hs
  obtain ⟨h1, h2, h3, h4, h5⟩ := h s hs
  exact ⟨inv_of_invB h1, h2, eq_next_of_isNext s h3, h4, h5⟩

theorem witness_FaultIsAbsorbingUntilReset :
    let s := withBeat 0b00 ({ inPhase .fault with cause := .srcError }.offerCmd 0b01)
    s.ph = .fault ∧ s.probe = none ∧ s.inp.rst = none ∧ StartOffered s ∧ s.inp.srcValid = true ∧
      (withReset s).inp.rst ≠ none := by
  unfold StartOffered; decide

theorem witness_Rotl32AndBits : (31 : Word).toNat < 32 ∧ 32 ≤ (32 : Word).toNat ∧ 31 < 32 := by decide

theorem witness_ReadOut :
    (inPhase .done).done = true ∧ (inPhase .req).busy = true ∧ (inPhase .acc).busy = true ∧ 39 < 40 ∧ 4 < 5 ∧ 3 < 4 := by decide

theorem witness_StatusAndLevelOutputs :
    Inv (inPhase .done) ∧ (inPhase .done).ph = .done ∧
    ∀ c ∈ [Cause.srcError, .lenOverflow, .invariant], ({ inPhase .fault with cause := c } : State).ph = .fault :=
  ⟨inv_of_invB (by decide), rfl, fun _ _ => rfl⟩

theorem witness_EngineComputesCompress : HostSilent (withBeat 0b00 (inPhase .load)) ∧ (inPhase .load).ph = .load := by
  unfold HostSilent; decide

/-- "abc" offered with gaps between the beats, START offered in `DONE`; the next stream waits behind. -/
def abcOffered (last : BitVec 10) : State :=
  { inPhase .done with inp := { Inputs.silent with
      cmdValid := true, cmd := 0b01
      srcLane := [none, some 0x061, none, none, some 0x062, some 0x063, none, some last, some 0x0ff] } }

theorem witness_DigestOfAMessage :
    let s := abcOffered 0x100
    s.probe = none ∧ s.inp.rst = none ∧ s.inp.rstLane = [] ∧ (s.inp.cmdValid = true ∧ s.inp.cmd = 0b01) ∧
      s.inp.cmdLane = [] ∧ s.ph = .done ∧ [(0x61 : Byte), 0x62, 0x63].length ≤ 2 ^ 61 - 1 ∧
      s.inp.pending = [(0x61 : Byte), 0x62, 0x63].map dataBeat ++ ((0b01 : BitVec 2) ++ (0x00 : Byte)) :: [0x0ff] := by decide

theorem witness_SourceErrorEndsInFault :
    let s := abcOffered 0x300
    StartOffered s ∧ s.inp.cmdLane = [] ∧ s.ph = .done ∧
      s.inp.pending = [(0x61 : Byte), 0x62, 0x63].map dataBeat ++
        ((BitVec.ofBool true ++ BitVec.ofBool true : BitVec 2) ++ (0x00 : Byte)) :: [0x0ff] := by
  unfold StartOffered; decide

/-- Two states that differ in a leftover: in `IDLE` in `H` and `COUNT`, in `ROUND` in `BUF` and `FILL`. -/
theorem witness_NoLeftoverIsRead :
    (AgreeLive { State.reset with h := digestIV, count := 3 } State.reset ∧
      step { State.reset with h := digestIV, count := 3 } = .next (stepped { State.reset with h := digestIV, count := 3 })) ∧
    (AgreeLive { indexed .round 79 with buf := [(0, 0x61)], fill := 1 } (indexed .round 79) ∧
      isNext (step (indexed .round 79)) = true) := by
  refine ⟨⟨?_, eq_next_of_isNext _ (by decide)⟩, ?_, by decide⟩
  · constructor <;> simp [State.reset]
  · constructor <;> simp [indexed, State.reset]

end Sys2Proof.Tests
end

section
/-! SUPPORT. A step without reset, outcome by outcome of `exec`, and what the end of a step leaves unchanged
(00_scope.md R7, 30_encoding.md R81, R86). -/

namespace Sys2Proof.Machine

theorem step_of_exec_next {s t : State} {i : Instr} (hr : s.inp.rst = none) (hf : s.fetch = .ok i)
    (h : exec i s = .next t) : step s = .next (envTick t) := by
  rw [step_ok hr hf, h, afterExec]

theorem step_of_exec_fault {s : State} {i : Instr} {f : Fault} (hr : s.inp.rst = none) (hf : s.fetch = .ok i)
    (h : exec i s = .fault f) : step s = .fault f := by
  rw [step_ok hr hf, h, afterExec]

theorem step_of_exec_refused {s : State} {i : Instr} {r : Refusal} (hr : s.inp.rst = none) (hf : s.fetch = .ok i)
    (h : exec i s = .refused r) : step s = .refused r := by
  rw [step_ok hr hf, h, afterExec]

/-- The dispatch word itself is what the decoder reads when no command is accepted (R86). -/
theorem fetch_dispatchWord {s : State} (hp : s.probe = none) (hc : s.takesCommand = false) :
    s.fetch = .ok (decodeUop s.dispatchWord) := by
  rw [decodeUop_dispatchWord, fetch_sequencer hp hc]

/-- None of the elements of R20 is written by the end of a step. -/
theorem sameCore_envTick (t : State) : SameCore t (envTick t) := by
  simp [SameCore]

/-- Settles O6: each outcome of `exec` is carried through by its own rule; the fetch lemmas name what is decoded. -/
theorem stepRunsTheDecodedInstruction : Obligations.StepRunsTheDecodedInstruction := by
  intro s hr
  refine ⟨fun i hf => ⟨?_, ?_, ?_⟩, fetch_command, fetch_dispatchWord, sameCore_envTick⟩
  · exact fun t => step_of_exec_next hr hf
  · exact fun f => step_of_exec_fault hr hf
  · exact fun r => step_of_exec_refused hr hf

end Sys2Proof.Machine
end

section
/-! SUPPORT. The rules the statements about the state share (10_state.md R20, R38, R39): when two states have the same
core, what the shared operations leave unchanged, which micro-operation each phase selects, when an instruction has a
next state. -/

namespace Sys2Proof.Machine

/-! ## The same core -/

theorem SameCore.trans {s t u : State} (h : SameCore s t) (h' : SameCore t u) : SameCore s u := by
  simp_all [SameCore]

theorem sameCore_quiet (s : State) : SameCore s s.quiet := by simp [SameCore]

/-- R170, R172: a command other than START changes no element of the core. -/
theorem exec_decodeCmd_sameCore {c : BitVec 2} (s : State) (hc : c ≠ 1) :
    ∃ u, exec (decodeCmd c) s = .next u ∧ SameCore s u := by
  rcases decodeCmd_cases c with ⟨_, hd⟩ | ⟨h1, _⟩ | ⟨_, hd⟩ | ⟨_, hd⟩
  · exact ⟨_, by rw [hd]; rfl, by simp [SameCore]⟩
  · exact absurd h1 hc
  · exact ⟨_, by rw [hd]; rfl, by simp [SameCore]⟩
  · exact ⟨_, by rw [hd]; rfl, by simp [SameCore]⟩

/-- Log 8: a unit run on its own changes no element of the core. -/
theorem exec_probe_sameCore {s u : State} {i : Instr} (hp : s.probe ≠ none) (hf : s.fetch = .ok i)
    (hx : exec i s = .next u) : SameCore s u := by
  rcases fetch_probe_cases hp hf with ⟨a, b, rfl | rfl | rfl | rfl | rfl⟩ | ⟨a, rfl⟩ | ⟨l, rfl⟩ | rfl
  · cases hx; simp [SameCore]
  · simp only [exec, execRotl32] at hx
    split at hx <;> cases hx
    simp [SameCore]
  · cases hx; simp [SameCore]
  · cases hx; simp [SameCore]
  · cases hx; simp [SameCore]
  · cases hx; simp [SameCore]
  · cases hx
  · cases hx; simp [SameCore]

/-! ## What the shared operations write -/

/-- R114: PAD.DATA, where it has a next state. -/
theorem padDataOp_next {b : Byte} {s u : State} (h : padDataOp b s = .next u) :
    s.fill.toNat < 64 ∧ u = { s with
      buf := s.buf.write s.fill.toNat b, fill := s.fill + 1, count := s.count + 1, ph := .fill
      out := { Outputs.quiet with srcAccept := true } } := by
  rcases padDataOp_cases b s with ⟨hl, e⟩ | ⟨_, e⟩ <;> rw [e] at h <;> cases h
  exact ⟨hl, rfl⟩

/-- R116: PAD.EOS.FIT, where it has a next state. -/
theorem padEosFitOp_next {s u : State} (h : padEosFitOp s = .next u) :
    s.fill.toNat < 64 ∧ ∃ o, u = { s with
      buf := writeLength (s.buf.write s.fill.toNat terminator) s.count, exh := true, ph := .load, out := o } := by
  rcases padEosFitOp_cases s with ⟨hl, e⟩ | ⟨_, e⟩ <;> rw [e] at h <;> cases h
  exact ⟨hl, _, rfl⟩

/-- R117: PAD.EOS.SPILL, where it has a next state. -/
theorem padEosSpillOp_next {s u : State} (h : padEosSpillOp s = .next u) :
    s.fill.toNat < 64 ∧ ∃ o, u = { s with
      buf := s.buf.write s.fill.toNat terminator, owed := true, ph := .load, out := o } := by
  rcases padEosSpillOp_cases s with ⟨hl, e⟩ | ⟨_, e⟩ <;> rw [e] at h <;> cases h
  exact ⟨hl, _, rfl⟩

/-- R142, R153: CE.EXPAND writes `W`, `T`, `PH`, and `CAUSE` only on entering `FAULT`. -/
theorem execCeExpand_frame {s u : State} (h : execCeExpand s = .next u) :
    ∃ w n p c o, u = { s with w := w, t := n, ph := p, cause := c, out := o } ∧ (c ≠ s.cause → p = .fault) := by
  rcases execCeExpand_cases s with ⟨_, ⟨_, e⟩ | ⟨_, e⟩⟩ | ⟨_, e⟩ <;> rw [e] at h <;> cases h
  · exact ⟨_, s.t, _, s.cause, _, rfl, by simp⟩
  · exact ⟨_, _, _, s.cause, _, rfl, by simp⟩
  · exact ⟨s.w, s.t, _, _, _, rfl, by simp⟩

/-- R150, R153: a round writes `A..E`, `T`, `PH`, and `CAUSE` only on entering `FAULT`. -/
theorem roundOp_frame {f : Word → Word → Word → Word} {k : Word} {s u : State} (h : roundOp f k s = .next u) :
    ∃ v n p c o, u = { s with v := v, t := n, ph := p, cause := c, out := o } ∧ (c ≠ s.cause → p = .fault) := by
  rcases roundOp_cases f k s with ⟨_, ⟨_, e⟩ | ⟨_, e⟩⟩ | ⟨_, e⟩ <;> rw [e] at h <;> cases h
  · exact ⟨_, s.t, _, s.cause, _, rfl, by simp⟩
  · exact ⟨_, _, _, s.cause, _, rfl, by simp⟩
  · exact ⟨s.v, s.t, _, _, _, rfl, by simp⟩

/-! ## The row a phase selects (R39, R86) -/

section
variable {s : State}

theorem selectUop_req (h : s.ph = .req) :
    selectUop s.dw = if s.exh then .padNextExh else if s.owed then .padNextOwed else .padNextRead := by
  simp [selectUop, State.dw, h]

/-- The state of the read is tested before the offered beat. -/
theorem selectUop_fill (h : s.ph = .fill) :
    selectUop s.dw =
      if s.fill.toNat = 64 then .padFull
      else if s.inp.srcValid = false then .padWait
      else if s.inp.srcKind.getLsbD 1 then .padErr
      else if s.inp.srcKind.getLsbD 0 then (if 56 ≤ s.fill.toNat then .padEosSpill else .padEosFit)
      else if s.count.toNat = 2 ^ 61 - 1 then .padDataOvf else .padData := by
  cases hv : s.inp.srcValid <;> simp [selectUop, State.dw, h, hv, count_eq_countMax]

theorem selectUop_expand (h : s.ph = .expand) :
    selectUop s.dw =
      if 80 ≤ s.t.toNat then .seqInvExpandHigh else if s.t.toNat < 16 then .seqInvExpandLow else .ceExpand := by
  simp [selectUop, State.dw, h]

/-- The round is chosen by the quadrant `T div 20`. -/
theorem selectUop_round (h : s.ph = .round) :
    selectUop s.dw =
      if 80 ≤ s.t.toNat then .seqInvRoundHigh
      else if s.t.toNat / 20 = 0 then .ceRoundF0 else if s.t.toNat / 20 = 1 then .ceRoundF1
      else if s.t.toNat / 20 = 2 then .ceRoundF2 else .ceRoundF3 := by
  by_cases h80 : 80 ≤ s.t.toNat
  · simp [selectUop, State.dw, h, h80]
  · have q0 : quadrant s.t = 0 ↔ s.t.toNat / 20 = 0 := quadrant_eq s.t 0 (by omega) (by omega)
    have q1 : quadrant s.t = 1 ↔ s.t.toNat / 20 = 1 := quadrant_eq s.t 1 (by omega) (by omega)
    have q2 : quadrant s.t = 2 ↔ s.t.toNat / 20 = 2 := quadrant_eq s.t 2 (by omega) (by omega)
    simp only [selectUop, State.dw, h, decide_eq_true_eq, q0, q1, q2]

end

/-! ## When an instruction has a next state -/

theorem padDataOp_has_next (b : Byte) {s : State} (h : s.fill.toNat < 64) :
    ∃ u, padDataOp b s = .next u ∧ u.ph = .fill := by
  rcases padDataOp_cases b s with ⟨_, e⟩ | ⟨hn, _⟩
  · exact ⟨_, e, rfl⟩
  · omega

theorem padEosFitOp_has_next {s : State} (h : s.fill.toNat < 64) : ∃ u, padEosFitOp s = .next u ∧ u.ph = .load := by
  rcases padEosFitOp_cases s with ⟨_, e⟩ | ⟨hn, _⟩
  · exact ⟨_, e, rfl⟩
  · omega

theorem padEosSpillOp_has_next {s : State} (h : s.fill.toNat < 64) :
    ∃ u, padEosSpillOp s = .next u ∧ u.ph = .load := by
  rcases padEosSpillOp_cases s with ⟨_, e⟩ | ⟨hn, _⟩
  · exact ⟨_, e, rfl⟩
  · omega

theorem execCeExpand_has_next (s : State) :
    ∃ u, execCeExpand s = .next u ∧
      u.ph = if 16 ≤ s.t.toNat ∧ s.t.toNat ≤ 79 then (if s.t.toNat = 79 then .initv else .expand) else .fault := by
  rcases execCeExpand_cases s with ⟨hr, ⟨ht, e⟩ | ⟨ht, e⟩⟩ | ⟨hr, e⟩
  · exact ⟨_, e, by simp [ht]⟩
  · exact ⟨_, e, by rw [if_pos (by omega), if_neg (by omega)]⟩
  · exact ⟨_, e, by rw [if_neg (by omega)]; rfl⟩

theorem roundOp_has_next (f : Word → Word → Word → Word) (k : Word) (s : State) :
    ∃ u, roundOp f k s = .next u ∧
      u.ph = if s.t.toNat ≤ 79 then (if s.t.toNat = 79 then .acc else .round) else .fault := by
  rcases roundOp_cases f k s with ⟨hr, ⟨ht, e⟩ | ⟨ht, e⟩⟩ | ⟨hr, e⟩
  · exact ⟨_, e, by simp [ht]⟩
  · exact ⟨_, e, by rw [if_pos (by omega), if_neg (by omega)]⟩
  · exact ⟨_, e, by rw [if_neg (by omega)]; rfl⟩

theorem format_selectUop (d : Dw) : (encode (selectUop d)).1 = .uop := by
  unfold selectUop
  (repeat' split) <;> rfl

/-- R115: with the buffer full, no row that stores a byte is selected. -/
theorem selectUop_of_full {d : Dw} (h : d.full = true) :
    selectUop d ∉ [Instr.padData, .padEosFit, .padEosSpill] := by
  simp only [selectUop, h, if_true]
  (repeat' split) <;> simp

/-- Every micro-operation has a next state; the three that store a byte at `BUF[FILL]` need it inside `BUF`. -/
theorem exec_uop_has_next {s : State} {i : Instr} (hf : (encode i).1 = .uop)
    (hw : i ∈ [Instr.padData, .padEosFit, .padEosSpill] → s.fill.toNat < 64) : ∃ u, exec i s = .next u := by
  cases i
  case padData => exact (padDataOp_has_next s.inp.srcData (hw (by simp))).imp fun _ h => h.1
  case padEosFit => exact (padEosFitOp_has_next (hw (by simp))).imp fun _ h => h.1
  case padEosSpill => exact (padEosSpillOp_has_next (hw (by simp))).imp fun _ h => h.1
  case ceExpand => exact (execCeExpand_has_next s).imp fun _ h => h.1
  case ceRoundF0 | ceRoundF1 | ceRoundF2 | ceRoundF3 => exact (roundOp_has_next _ _ s).imp fun _ h => h.1
  case primReserved lo => cases lo <;> cases hf
  case cmdNop | cmdStart | cmdReserved | beatData | beatEos | beatErr | beatReserved | add32 | rotl32 | and32 | or32 |
    xor32 | not32 | fmtHex => cases hf
  all_goals exact ⟨_, rfl⟩

/-- Every command has a next state. -/
theorem exec_decodeCmd_has_next (c : BitVec 2) (s : State) : ∃ u, exec (decodeCmd c) s = .next u := by
  by_cases hc : c = 1
  · subst hc
    cases h : (s.offerCmd 1).acceptsStart
    · exact ⟨(s.offerCmd 1).quiet, if_neg (by rw [h]; decide)⟩
    · exact ⟨_, if_pos h⟩
  · exact (exec_decodeCmd_sameCore s hc).imp fun _ h => h.1

/-! ## The step -/

/-- A step whose instruction leaves the core as it is. -/
theorem step_sameCore {s u : State} {i : Instr} (hr : s.inp.rst = none) (hf : s.fetch = .ok i)
    (hx : exec i s = .next u) (hu : SameCore s u) : ∃ t, step s = .next t ∧ SameCore s t :=
  ⟨_, step_of_exec_next hr hf hx, hu.trans (sameCore_envTick u)⟩

/-- R39: where the sequencer holds and START is not accepted, the core stays as it is, whether another command is accepted
or not. -/
theorem step_of_hold {s : State} (hp : s.probe = none) (hr : s.inp.rst = none)
    (hph : s.ph = .idle ∨ s.ph = .done ∨ s.ph = .fault) (hs : s.takesCommand = true → s.inp.cmd ≠ 1) :
    ∃ t, step s = .next t ∧ SameCore s t := by
  rcases fetch_cases hp with ⟨hc, hf⟩ | ⟨_, hf⟩
  · obtain ⟨u, hx, hu⟩ := exec_decodeCmd_sameCore s (hs hc)
    exact step_sameCore hr hf hx hu
  · refine step_sameCore hr hf (u := s.quiet) ?_ (sameCore_quiet s)
    rcases hph with h | h | h <;> simp only [selectUop, State.dw, h] <;> rfl

/-- A step of the sequencer, from the row it selects and what that row does. -/
theorem runsTo_of_selectUop {s u : State} {i : Instr} {p : Phase} (hs : SequencerSteps s) (hi : selectUop s.dw = i)
    (hx : exec i s = .next u) (hp : u.ph = p) : RunsTo s i p := by
  obtain ⟨hprobe, hr, hc⟩ := hs
  have hf : s.fetch = .ok i := by rw [fetch_sequencer hprobe hc, hi]
  exact ⟨hf, _, step_of_exec_next hr hf hx, hp⟩

/-- R196: with `rst` asserted a step is a reset step. -/
theorem step_of_rst {s : State} (h : s.inp.rst ≠ none) : step s = .next (envTick (resetStep s)) := by
  obtain ⟨r, hr⟩ := Option.ne_none_iff_exists'.mp h
  exact step_reset hr

/-- With `FILL` in its range and no unit run on its own, no stop of the model is met. -/
theorem step_has_next {s : State} (hp : s.probe = none) (hF : s.fill.toNat ≤ 64) : ∃ t, step s = .next t := by
  by_cases hr : s.inp.rst = none
  · rcases fetch_cases hp with ⟨_, hf⟩ | ⟨_, hf⟩
    · obtain ⟨u, hx⟩ := exec_decodeCmd_has_next s.inp.cmd s
      exact ⟨_, step_of_exec_next hr hf hx⟩
    · have hw : selectUop s.dw ∈ [Instr.padData, .padEosFit, .padEosSpill] → s.fill.toNat < 64 := fun hm =>
        Nat.lt_of_le_of_ne hF fun h64 => selectUop_of_full (by simp [State.dw, h64]) hm
      obtain ⟨u, hx⟩ := exec_uop_has_next (format_selectUop s.dw) hw
      exact ⟨_, step_of_exec_next hr hf hx⟩
  · exact ⟨_, step_of_rst hr⟩

end Sys2Proof.Machine
end

section
/-! SUPPORT. The invariants of 10_state.md R38: how they are established in each kind of phase, and that every step keeps
them. -/

namespace Sys2Proof.Machine

/-- The part of the invariants that speaks of no phase and of no cause. -/
structure PhaseFree (s : State) : Prop where
  fill : s.fill.toNat ≤ 64
  flags : ¬ (s.owed = true ∧ s.exh = true)
  bufWf : s.buf.wf = true

theorem Inv.cause_eq_none {s : State} (hs : Inv s) (h : s.ph ≠ .fault) : s.cause = .none :=
  not_not.mp fun hc => h (hs.causeIff.mp hc)

theorem Inv.of_sameCore {s t : State} (hs : Inv s) (h : SameCore s t) : Inv t := by
  obtain ⟨hph, hcause, -, hfill, howed, hexh, ht, -, -, -, hbuf⟩ := h
  constructor
  case fill => rw [hfill]; exact hs.fill
  case expandT => rw [hph, ht]; exact hs.expandT
  case roundT => rw [hph, ht]; exact hs.roundT
  case flags => rw [howed, hexh]; exact hs.flags
  case causeIff => rw [hcause, hph]; exact hs.causeIff
  case noInvariant => rw [hcause]; exact hs.noInvariant
  case legal => rw [hph]; exact hs.legal
  case finished => rw [hexh, hph]; exact hs.finished
  case reading => rw [howed, hph]; exact hs.reading
  case bufWf => rw [hbuf]; exact hs.bufWf

/-! ## Entering a phase with the invariants -/

section
variable {u : State} (h : PhaseFree u)
include h

/-- The phases that ask for nothing beyond `CAUSE = none`. -/
theorem inv_of_plain (hc : u.cause = .none) (hp : u.ph ∈ [Phase.idle, .req, .load, .initv, .acc, .done]) : Inv u := by
  obtain ⟨hfill, hflags, hbuf⟩ := h
  have hne : ∀ p ∈ [Phase.fill, .expand, .round, .fault], u.ph ≠ p := by
    rintro p hm rfl
    revert hm hp
    cases u.ph <;> decide
  constructor <;> simp_all

theorem inv_of_fill (hc : u.cause = .none) (hp : u.ph = .fill) (ho : u.owed = false) (he : u.exh = false) : Inv u := by
  obtain ⟨hfill, hflags, hbuf⟩ := h
  constructor <;> simp_all

theorem inv_of_expand (hc : u.cause = .none) (hp : u.ph = .expand) (ht : 16 ≤ u.t.toNat ∧ u.t.toNat ≤ 79) : Inv u := by
  obtain ⟨hfill, hflags, hbuf⟩ := h
  constructor <;> simp_all

theorem inv_of_round (hc : u.cause = .none) (hp : u.ph = .round) (ht : u.t.toNat ≤ 79) : Inv u := by
  obtain ⟨hfill, hflags, hbuf⟩ := h
  constructor <;> simp_all

theorem inv_of_fault (hp : u.ph = .fault) (hc : u.cause ≠ .none) (hi : u.cause ≠ .invariant) : Inv u := by
  obtain ⟨hfill, hflags, hbuf⟩ := h
  constructor <;> simp_all

end

/-- Settles O10: the reset state is in `IDLE` with nothing in the buffer. -/
theorem resetSatisfiesInvariants : Obligations.ResetSatisfiesInvariants :=
  inv_of_plain ⟨by decide, by decide, rfl⟩ rfl (by decide)

theorem inv_resetStep (s : State) : Inv (resetStep s) :=
  inv_of_plain ⟨by simp, by simp, wf_freeBuf _⟩ rfl (by simp)

/-! ## The instructions, phase by phase -/

section
variable {s u : State} (hs : Inv s)
include hs

/-- R171: an accepted START enters `REQ` with both flags clear. -/
theorem inv_exec_command (hc : s.takesCommand = true) (hx : exec (decodeCmd s.inp.cmd) s = .next u) : Inv u := by
  by_cases h1 : s.inp.cmd = 1
  · obtain ⟨-, hph⟩ := takesCommand_start hc h1
    have hacc : (s.offerCmd 1).acceptsStart = true := by simpa [State.acceptsStart] using hph
    have hcause := hs.cause_eq_none (by rcases hph with h | h <;> simp [h])
    rw [h1] at hx
    cases (if_pos hacc).symm.trans hx
    exact inv_of_plain ⟨hs.fill, by simp, hs.bufWf⟩ hcause (by simp)
  · obtain ⟨v, hv, hsame⟩ := exec_decodeCmd_sameCore s h1
    cases hv.symm.trans hx
    exact hs.of_sameCore hsame

theorem inv_exec_req (hph : s.ph = .req) (hx : exec (selectUop s.dw) s = .next u) : Inv u := by
  have hc := hs.cause_eq_none (by simp [hph])
  rw [selectUop_req hph] at hx
  split at hx
  · cases hx; exact inv_of_plain ⟨hs.fill, hs.flags, hs.bufWf⟩ hc (by simp)
  · split at hx
    · cases hx; exact inv_of_plain ⟨hs.fill, by simp, wf_writeLength Memory.wf_cleared _⟩ hc (by simp)
    · next he ho =>
      cases hx; exact inv_of_fill ⟨by simp, hs.flags, Memory.wf_cleared⟩ hc rfl (by simpa using ho) (by simpa using he)

/-- In `FILL` neither flag is set, so a block that ends the stream sets one flag only. -/
theorem inv_exec_fill (hph : s.ph = .fill) (hx : exec (selectUop s.dw) s = .next u) : Inv u := by
  have hc := hs.cause_eq_none (by simp [hph])
  have he : s.exh = false := by simpa using fun h => hs.finished h hph
  have ho : s.owed = false := by simpa using fun h => hs.reading h hph
  rw [selectUop_fill hph] at hx
  split_ifs at hx
  · cases hx; exact inv_of_plain ⟨hs.fill, hs.flags, hs.bufWf⟩ hc (by simp)
  · cases hx; exact hs.of_sameCore (sameCore_quiet s)
  · cases hx; exact inv_of_fault ⟨hs.fill, hs.flags, hs.bufWf⟩ rfl (by simp) (by simp)
  · obtain ⟨hl, o, rfl⟩ := padEosSpillOp_next hx
    exact inv_of_plain ⟨hs.fill, by simp [he], Memory.wf_write _ hs.bufWf hl⟩ hc (by simp)
  · obtain ⟨hl, o, rfl⟩ := padEosFitOp_next hx
    exact inv_of_plain ⟨hs.fill, by simp [ho], wf_writeLength (Memory.wf_write _ hs.bufWf hl) _⟩ hc (by simp)
  · cases hx; exact inv_of_fault ⟨hs.fill, hs.flags, hs.bufWf⟩ rfl (by simp) (by simp)
  · obtain ⟨hl, rfl⟩ := padDataOp_next hx
    have hF : (s.fill + 1).toNat ≤ 64 := by bv_omega
    exact inv_of_fill ⟨hF, hs.flags, Memory.wf_write _ hs.bufWf hl⟩ hc rfl ho he

theorem inv_exec_expand (hph : s.ph = .expand) (hx : exec (selectUop s.dw) s = .next u) : Inv u := by
  have hc := hs.cause_eq_none (by simp [hph])
  have ht := hs.expandT hph
  rw [selectUop_expand hph, if_neg (by omega), if_neg (by omega)] at hx
  have hx : execCeExpand s = .next u := hx
  rcases execCeExpand_cases s with ⟨_, ⟨_, e⟩ | ⟨hlt, e⟩⟩ | ⟨hout, _⟩
  · cases e.symm.trans hx; exact inv_of_plain ⟨hs.fill, hs.flags, hs.bufWf⟩ hc (by simp)
  · cases e.symm.trans hx; exact inv_of_expand ⟨hs.fill, hs.flags, hs.bufWf⟩ hc rfl (by bv_omega)
  · omega

theorem inv_roundOp {f : Word → Word → Word → Word} {k : Word} (hph : s.ph = .round) (hx : roundOp f k s = .next u) :
    Inv u := by
  have hc := hs.cause_eq_none (by simp [hph])
  have ht := hs.roundT hph
  rcases roundOp_cases f k s with ⟨_, ⟨_, e⟩ | ⟨hlt, e⟩⟩ | ⟨hout, _⟩
  · cases e.symm.trans hx; exact inv_of_plain ⟨hs.fill, hs.flags, hs.bufWf⟩ hc (by simp)
  · cases e.symm.trans hx; exact inv_of_round ⟨hs.fill, hs.flags, hs.bufWf⟩ hc rfl (by bv_omega)
  · omega

theorem inv_exec_round (hph : s.ph = .round) (hx : exec (selectUop s.dw) s = .next u) : Inv u := by
  have ht := hs.roundT hph
  rw [selectUop_round hph, if_neg (by omega)] at hx
  split_ifs at hx <;> exact inv_roundOp hs hph hx

/-- R38: every micro-operation the dispatch word selects keeps the invariants, phase by phase; the reserved phases are
excluded by the invariants themselves. -/
theorem inv_exec_selectUop (hx : exec (selectUop s.dw) s = .next u) : Inv u := by
  have hl := hs.legal
  cases hph : s.ph
  case req => exact inv_exec_req hs hph hx
  case fill => exact inv_exec_fill hs hph hx
  case expand => exact inv_exec_expand hs hph hx
  case round => exact inv_exec_round hs hph hx
  case idle | done | fault =>
    simp only [selectUop, State.dw, hph] at hx
    cases hx; exact hs.of_sameCore (sameCore_quiet s)
  case load =>
    have hc := hs.cause_eq_none (by simp [hph])
    simp only [selectUop, State.dw, hph] at hx
    cases hx; exact inv_of_expand ⟨hs.fill, hs.flags, hs.bufWf⟩ hc rfl (by simp)
  case initv =>
    have hc := hs.cause_eq_none (by simp [hph])
    simp only [selectUop, State.dw, hph] at hx
    cases hx; exact inv_of_round ⟨hs.fill, hs.flags, hs.bufWf⟩ hc rfl (by simp)
  case acc =>
    have hc := hs.cause_eq_none (by simp [hph])
    simp only [selectUop, State.dw, hph] at hx
    cases hx; exact inv_of_plain ⟨hs.fill, hs.flags, hs.bufWf⟩ hc (by simp)
  case rsv9 | rsvA | rsvB | rsvC | rsvD | rsvE => simp [hph] at hl

theorem inv_exec {i : Instr} (hf : s.fetch = .ok i) (hx : exec i s = .next u) : Inv u := by
  by_cases hp : s.probe = none
  · rcases fetch_cases hp with ⟨hc, hf'⟩ | ⟨_, hf'⟩ <;> cases hf.symm.trans hf'
    · exact inv_exec_command hs hc hx
    · exact inv_exec_selectUop hs hx
  · exact hs.of_sameCore (exec_probe_sameCore hp hf hx)

end

/-- Settles O11: a step is a reset or a fetched instruction, and the end of a step leaves the core as it is. -/
theorem stepKeepsInvariants : Obligations.StepKeepsInvariants := by
  intro s t hs hstep
  rcases step_cases hstep with ⟨_, rfl⟩ | ⟨i, u, _, hf, hx, rfl⟩
  · exact (inv_resetStep s).of_sameCore (sameCore_envTick _)
  · exact (inv_exec hs hf hx).of_sameCore (sameCore_envTick u)

/-- Settles O12: the invariants keep `FILL` in its range, and that is all a next state needs. -/
theorem legalStateAlwaysSteps : Obligations.LegalStateAlwaysSteps :=
  fun _ hs hp => step_has_next hp hs.fill

end Sys2Proof.Machine
end

section
/-! SUPPORT. The transition table of 10_state.md R39 row by row, and the "written by" column of R20,
and the values after reset (R36). -/

namespace Sys2Proof.Machine

/-! ## The rows of the sequencer, phase by phase -/

section
variable {s : State} (hs : SequencerSteps s)
include hs

theorem rows_fill (hph : s.ph = .fill) (hl : s.fill.toNat < 64) :
    (BeatOffered 0b00 s → s.count.toNat < 2 ^ 61 - 1 → RunsTo s .padData .fill) ∧
    (BeatOffered 0b00 s → s.count.toNat = 2 ^ 61 - 1 → RunsTo s .padDataOvf .fault) ∧
    (BeatOffered 0b01 s → s.fill.toNat ≤ 55 → RunsTo s .padEosFit .load) ∧
    (BeatOffered 0b01 s → 56 ≤ s.fill.toNat → RunsTo s .padEosSpill .load) ∧
    (BeatOffered 0b10 s ∨ BeatOffered 0b11 s → RunsTo s .padErr .fault) ∧
    (s.inp.srcValid = false → RunsTo s .padWait .fill) := by
  have hsel := selectUop_fill hph
  rw [if_neg hl.ne] at hsel
  refine ⟨?_, ?_, ?_, ?_, ?_, ?_⟩
  · rintro ⟨hv, hk⟩ hc
    obtain ⟨u, hx, hu⟩ := padDataOp_has_next s.inp.srcData hl
    exact runsTo_of_selectUop hs (by simp [hsel, hv, hk]; omega) hx hu
  · rintro ⟨hv, hk⟩ hc
    exact runsTo_of_selectUop hs (by simp [hsel, hv, hk, hc]) rfl rfl
  · rintro ⟨hv, hk⟩ hF
    obtain ⟨u, hx, hu⟩ := padEosFitOp_has_next hl
    exact runsTo_of_selectUop hs (by simp [hsel, hv, hk, show ¬ 56 ≤ s.fill.toNat by omega]) hx hu
  · rintro ⟨hv, hk⟩ hF
    obtain ⟨u, hx, hu⟩ := padEosSpillOp_has_next hl
    exact runsTo_of_selectUop hs (by simp [hsel, hv, hk, hF]) hx hu
  · rintro (⟨hv, hk⟩ | ⟨hv, hk⟩)
    · exact runsTo_of_selectUop hs (by simp [hsel, hv, hk]) rfl rfl
    · exact runsTo_of_selectUop hs (by simp [hsel, hv, hk]) rfl rfl
  · intro hv
    exact runsTo_of_selectUop hs (by simp [hsel, hv]) rfl hph

theorem row_ceExpand (hph : s.ph = .expand) (h16 : 16 ≤ s.t.toNat) (h79 : s.t.toNat ≤ 79) :
    RunsTo s .ceExpand (if s.t.toNat = 79 then .initv else .expand) := by
  obtain ⟨u, hx, hu⟩ := execCeExpand_has_next s
  have hsel := selectUop_expand hph
  rw [if_neg (by omega), if_neg (by omega)] at hsel
  exact runsTo_of_selectUop hs hsel hx (by rw [hu, if_pos ⟨h16, h79⟩])

/-- The four rows of `ROUND` differ in the micro-operation only. -/
theorem row_ceRound {i : Instr} {f : Word → Word → Word → Word} {k : Word} (h79 : s.t.toNat ≤ 79)
    (hsel : selectUop s.dw = i) (hop : exec i s = roundOp f k s) :
    RunsTo s i (if s.t.toNat = 79 then .acc else .round) := by
  obtain ⟨u, hx, hu⟩ := roundOp_has_next f k s
  exact runsTo_of_selectUop hs hsel (hop.trans hx) (by rw [hu, if_pos h79])

theorem rows_round (hph : s.ph = .round) :
    (s.t.toNat ≤ 19 → RunsTo s .ceRoundF0 .round) ∧
    (20 ≤ s.t.toNat → s.t.toNat ≤ 39 → RunsTo s .ceRoundF1 .round) ∧
    (40 ≤ s.t.toNat → s.t.toNat ≤ 59 → RunsTo s .ceRoundF2 .round) ∧
    (60 ≤ s.t.toNat → s.t.toNat ≤ 78 → RunsTo s .ceRoundF3 .round) ∧
    (s.t.toNat = 79 → RunsTo s .ceRoundF3 .acc) := by
  have hsel := selectUop_round hph
  refine ⟨fun h1 => ?_, fun h0 h1 => ?_, fun h0 h1 => ?_, fun h0 h1 => ?_, fun h79 => ?_⟩
  · rw [if_neg (by omega), if_pos (by omega)] at hsel
    simpa [show s.t.toNat ≠ 79 by omega] using row_ceRound hs (by omega) hsel rfl
  · rw [if_neg (by omega), if_neg (by omega), if_pos (by omega)] at hsel
    simpa [show s.t.toNat ≠ 79 by omega] using row_ceRound hs (by omega) hsel rfl
  · rw [if_neg (by omega), if_neg (by omega), if_neg (by omega), if_pos (by omega)] at hsel
    simpa [show s.t.toNat ≠ 79 by omega] using row_ceRound hs (by omega) hsel rfl
  · rw [if_neg (by omega), if_neg (by omega), if_neg (by omega), if_neg (by omega)] at hsel
    simpa [show s.t.toNat ≠ 79 by omega] using row_ceRound hs (by omega) hsel rfl
  · rw [if_neg (by omega), if_neg (by omega), if_neg (by omega), if_neg (by omega)] at hsel
    simpa [h79] using row_ceRound hs (by omega) hsel rfl

end

/-- R171: START offered in `IDLE` or `DONE` is accepted. -/
theorem runsTo_cmdStart {s : State} (hp : s.probe = none) (hr : s.inp.rst = none) (hph : s.ph = .idle ∨ s.ph = .done)
    (ho : StartOffered s) : RunsTo s .cmdStart .req := by
  obtain ⟨hv, hcmd⟩ := ho
  have hacc : s.acceptsStart = true := by simpa [State.acceptsStart] using hph
  have hf : s.fetch = .ok .cmdStart := by
    rw [fetch_command hp (by simp [State.takesCommand, hv, hacc]), hcmd]; rfl
  exact ⟨hf, _, step_of_exec_next hr hf (if_pos hacc), rfl⟩

/-- Settles O7: the host's rows from the two lemmas about holding and START, the sequencer's rows phase by phase. -/
theorem transitionTable : Obligations.TransitionTable := by
  intro s hp _
  refine ⟨fun hr => ⟨_, step_of_rst hr, rfl⟩, runsTo_cmdStart hp, fun hr hph hno => ?_, fun hr hph => ?_,
    fun hs => ⟨?_, ?_, ?_, ?_, rows_fill hs, ?_, ?_, ?_, ?_, rows_round hs, ?_, ?_, ?_, ?_⟩⟩
  · exact step_of_hold hp hr (by tauto) fun hc h1 => hno ⟨(takesCommand_start hc h1).1, h1⟩
  · exact step_of_hold hp hr (by tauto) fun hc h1 => by simpa [hph] using (takesCommand_start hc h1).2
  · exact fun hph he => runsTo_of_selectUop hs (by simp [selectUop_req hph, he]) rfl rfl
  · exact fun hph he ho => runsTo_of_selectUop hs (by simp [selectUop_req hph, he, ho]) rfl rfl
  · exact fun hph he ho => runsTo_of_selectUop hs (by simp [selectUop_req hph, he, ho]) rfl rfl
  · exact fun hph hF => runsTo_of_selectUop hs (by simp [selectUop_fill hph, hF]) rfl rfl
  · exact fun hph => runsTo_of_selectUop hs (by simp [selectUop, State.dw, hph]) rfl rfl
  · intro hph h16 h78
    simpa [show s.t.toNat ≠ 79 by omega] using row_ceExpand hs hph h16 (by omega)
  · intro hph h79
    simpa [h79] using row_ceExpand hs hph (by omega) (by omega)
  · exact fun hph => runsTo_of_selectUop hs (by simp [selectUop, State.dw, hph]) rfl rfl
  · exact fun hph h80 => runsTo_of_selectUop hs (by simp [selectUop_expand hph, h80]) rfl rfl
  · exact fun hph h16 => runsTo_of_selectUop hs
      (by rw [selectUop_expand hph, if_neg (by omega), if_pos h16]) rfl rfl
  · exact fun hph h80 => runsTo_of_selectUop hs (by simp [selectUop_round hph, h80]) rfl rfl
  · exact fun hph => runsTo_of_selectUop hs (by simp [selectUop, State.dw, hph]) rfl rfl

/-! ## The "written by" column -/

/-- Settles O15: each meaning is one update of the old state, so a field outside the update is the old one; the shared
operations give theirs by their frame lemmas. -/
theorem writtenOnlyByTheListedInstructions : Obligations.WrittenOnlyByTheListedInstructions := by
  intro i s u hx
  cases i
  case cmdStart =>
    simp only [exec, execCmdStart] at hx
    split at hx <;> cases hx <;> simp
  case beatData b =>
    simp only [exec, execBeatData] at hx
    split at hx
    · split at hx
      · cases hx; simp
      · obtain ⟨_, rfl⟩ := padDataOp_next hx; simp
    · cases hx; simp
  case beatEos b =>
    simp only [exec, execBeatEos] at hx
    split at hx
    · split at hx
      · obtain ⟨_, _, rfl⟩ := padEosSpillOp_next hx; simp
      · obtain ⟨_, _, rfl⟩ := padEosFitOp_next hx; simp
    · cases hx; simp
  case beatErr b =>
    simp only [exec, execBeatErr] at hx
    split at hx <;> cases hx <;> simp
  case beatReserved b =>
    simp only [exec, execBeatReserved] at hx
    split at hx <;> cases hx <;> simp
  case padData => obtain ⟨_, rfl⟩ := padDataOp_next hx; simp
  case padEosFit => obtain ⟨_, _, rfl⟩ := padEosFitOp_next hx; simp
  case padEosSpill => obtain ⟨_, _, rfl⟩ := padEosSpillOp_next hx; simp
  case ceExpand => obtain ⟨w, n, p, c, o, rfl, hc⟩ := execCeExpand_frame hx; simpa using hc
  case ceRoundF0 | ceRoundF1 | ceRoundF2 | ceRoundF3 =>
    obtain ⟨v, n, p, c, o, rfl, hc⟩ := roundOp_frame hx; simpa using hc
  case rotl32 a n =>
    simp only [exec, execRotl32] at hx
    split at hx <;> cases hx
    simp
  case primReserved => cases hx
  all_goals cases hx; simp

/-! ## The state after reset -/

/-- Settles O8: the values of one state written out (R36), and the status they give. -/
theorem resetStateValues : Obligations.ResetStateValues := by
  unfold Obligations.ResetStateValues
  decide

end Sys2Proof.Machine
end

section
/-! SUPPORT. `MemRead` undoes `MemWrite`: a big-endian number is rebuilt byte by byte from its most significant end
(20_memory.md R52, R53). -/

namespace Sys2Proof.Machine

theorem Memory.readBE_succ (m : Memory) (a n : Nat) :
    m.readBE a (n + 1) = m.readBE a n * 256 + (m.read (a + n)).toNat := by
  simp [Memory.readBE, List.range_succ]

/-- R53: byte `k` of the number in the spec's own terms, bits `8(n-1-k)+7 : 8(n-1-k)`. -/
theorem toNat_byteBE (v n k : Nat) : (byteBE v n k).toNat = v / 2 ^ (8 * (n - 1 - k)) % 256 := by
  rw [byteBE, BitVec.toNat_ofNat, Nat.pow_mul]

theorem Memory.read_writeBE_inside {m : Memory} (h : m.wf = true) {a n k : Nat} (v : Nat) (hn : a + n ≤ 64)
    (hk : k < n) : (m.writeBE a n v).read (a + k) = byteBE v n k := by
  rw [Memory.read_writeBE h a n v hn, if_pos (by omega), Nat.add_sub_cancel_left]

theorem Memory.read_writeBE_outside {m : Memory} (h : m.wf = true) {a n b : Nat} (v : Nat) (hn : a + n ≤ 64)
    (hb : b < a ∨ a + n ≤ b) : (m.writeBE a n v).read b = m.read b := by
  rw [Memory.read_writeBE h a n v hn, if_neg (by omega)]

/-- The first `j` of the `n` bytes of `v` are `v` without its last `n - j` bytes. -/
theorem Memory.readBE_of_bytes {m : Memory} {a n v : Nat} (hv : v < 2 ^ (8 * n))
    (hm : ∀ k, k < n → m.read (a + k) = byteBE v n k) {j : Nat} (hj : j ≤ n) :
    m.readBE a j = v / 2 ^ (8 * (n - j)) := by
  induction j with
  | zero => rw [Nat.sub_zero, Nat.div_eq_of_lt hv]; rfl
  | succ j ih =>
    have hshift : v / 2 ^ (8 * (n - j)) = v / 2 ^ (8 * (n - 1 - j)) / 256 := by
      rw [Nat.div_div_eq_div_mul, show n - j = n - 1 - j + 1 by omega, Nat.mul_add, Nat.pow_add]
    rw [Memory.readBE_succ, ih (by omega), hm j (by omega), toNat_byteBE, hshift, Nat.div_add_mod',
      show n - 1 - j = n - (j + 1) by omega]

/-- R53: a read of the place just written gives the number back, whatever the width. -/
theorem Memory.readBE_writeBE {m : Memory} (h : m.wf = true) {a n v : Nat} (hn : a + n ≤ 64) (hv : v < 2 ^ (8 * n)) :
    (m.writeBE a n v).readBE a n = v := by
  simpa using Memory.readBE_of_bytes hv (fun _ hk => Memory.read_writeBE_inside h v hn hk) le_rfl

theorem accessInBounds_iff {a n : Nat} : accessInBounds a n = true ↔ a + n ≤ 64 ∧ (n = 1 ∨ n = 4 ∨ n = 8) := by
  simp [accessInBounds, Config.bufBytes, or_assoc]

/-- Settles O34: inside the bounds both primitives are the wide accesses, and the laws of these give each clause. -/
theorem memWriteThenMemRead : Obligations.MemWriteThenMemRead := by
  intro m a n v hm hn hwidth hv
  have hacc : accessInBounds a n = true := accessInBounds_iff.2 ⟨hn, hwidth⟩
  refine ⟨m.writeBE a n v, if_pos hacc, Memory.wf_writeBE hm a n v hn, ?_, fun k hk => ?_, fun b hb => ?_⟩
  · rw [memRead, if_pos hacc, Memory.readBE_writeBE hm hn hv]
  · rw [Memory.read_writeBE_inside hm v hn hk, toNat_byteBE]
  · exact Memory.read_writeBE_outside hm v hn hb

end Sys2Proof.Machine
end

section
/-! SUPPORT. The encodings read back by the decoder: the fields of a BEAT word and of a PRIM word (30_encoding.md R82, R87),
and the rows of the opcode map as conditions on the fields of the dispatch word (R86). -/

namespace Sys2Proof

/-! ## BEAT and PRIM words -/

theorem decode_beat (w : BitVec 10) : decode .beat w.toNat = .ok (decodeBeat w) := by
  have : w.toNat < 2 ^ 10 := w.isLt
  simp only [decode, Format.width, this, if_true, BitVec.ofNat_toNat, BitVec.setWidth_eq]

theorem decode_prim (w : BitVec 72) : decode .prim w.toNat = decodePrim w := by
  have : w.toNat < 2 ^ 72 := w.isLt
  simp only [decode, Format.width, this, if_true, BitVec.ofNat_toNat, BitVec.setWidth_eq]

/-- R82: the two kind bits choose the beat, the data bits are its operand. -/
theorem decodeBeat_append (k : BitVec 2) (d : Byte) :
    decodeBeat (k ++ d) =
      if k.getLsbD 1 then (if k.getLsbD 0 then .beatReserved d else .beatErr d)
      else if k.getLsbD 0 then .beatEos d else .beatData d := by
  have hd : (k ++ d).extractLsb' 0 8 = d := BitVec.extractLsb'_append_eq_right
  have h9 : (k ++ d).getLsbD 9 = k.getLsbD 1 := BitVec.getLsbD_append
  have h8 : (k ++ d).getLsbD 8 = k.getLsbD 0 := BitVec.getLsbD_append
  simp only [decodeBeat, hd, h9, h8]

/-- R87, log 10: function select and operands stand in the word where the decoder reads them. -/
theorem decodePrim_primWord (fn : BitVec 3) (a b : Word) :
    decodePrim (primWord fn a b) = decodePrimFn fn.toNat a b := by
  have hb : (primWord fn a b).extractLsb' 40 32 = b :=
    (BitVec.extractLsb'_append_eq_of_le (by decide)).trans BitVec.extractLsb'_append_eq_left
  have ha : (primWord fn a b).extractLsb' 8 32 = a :=
    (BitVec.extractLsb'_append_eq_of_le (by decide)).trans BitVec.extractLsb'_append_eq_right
  have hf : (primWord fn a b).extractLsb' 0 8 = fn.setWidth 8 := BitVec.extractLsb'_append_eq_right
  have hn : (fn.setWidth 8).toNat = fn.toNat := by
    rw [BitVec.toNat_setWidth]; omega
  rw [decodePrim, hb, ha, hf, hn]

theorem decode_primWord (fn : BitVec 3) (a b : Word) :
    decode .prim (primWord fn a b).toNat = decodePrimFn fn.toNat a b := by
  rw [decode_prim, decodePrim_primWord]

/-- Settles O2: a CMD word and a dispatch word hold no operand beyond a bit, so they are computed; BEAT and PRIM words are
read field by field. -/
theorem decodeOfEncode : Obligations.DecodeOfEncode := by
  intro i hwf
  cases i
  case cmdReserved lo => cases lo <;> rfl
  case beatData b | beatEos b | beatErr b | beatReserved b => exact (decode_beat _).trans (congrArg _ (decodeBeat_append _ b))
  case rotl32 a n =>
    have hn : n.toNat < 32 := by simpa [wellFormed] using hwf
    exact (decode_primWord _ a n).trans (if_pos hn)
  case add32 a b | and32 a b | or32 a b | xor32 a b => exact decode_primWord _ a b
  case not32 a => exact decode_primWord _ a 0
  case primReserved lo => cases lo <;> exact decode_primWord _ 0 0
  all_goals rfl

/-! ## The rows of the opcode map -/

/-- R86: packing the fields of a dispatch word gives the word back. -/
@[simp] theorem Dw.pack_unpack (w : BitVec 16) : (Dw.unpack w).pack = w := by
  apply BitVec.eq_of_getLsbD_eq
  intro i hi
  rw [Dw.getLsbD_pack]
  simp only [Dw.unpack, Phase.code_ofCode]
  interval_cases i <;> simp

/-- R86: a row of the opcode map tests the fields of the dispatch word one by one, the beat kind bit by bit. -/
theorem Dw.pack_and_eq_iff (d : Dw) (m v : BitVec 16) :
    d.pack &&& m = v ↔
      d.ph.code &&& m.extractLsb' 12 4 = v.extractLsb' 12 4 ∧
      (d.exh && m.getLsbD 11) = v.getLsbD 11 ∧ (d.owed && m.getLsbD 10) = v.getLsbD 10 ∧
      (d.full && m.getLsbD 9) = v.getLsbD 9 ∧ (d.hi && m.getLsbD 8) = v.getLsbD 8 ∧
      ((d.bk.getLsbD 1 && m.getLsbD 7) = v.getLsbD 7 ∧ (d.bk.getLsbD 0 && m.getLsbD 6) = v.getLsbD 6) ∧
      (d.bv && m.getLsbD 5) = v.getLsbD 5 ∧ d.q &&& m.extractLsb' 3 2 = v.extractLsb' 3 2 ∧
      (d.tov && m.getLsbD 2) = v.getLsbD 2 ∧ (d.cntmax && m.getLsbD 1) = v.getLsbD 1 ∧
      (d.tlo && m.getLsbD 0) = v.getLsbD 0 := by
  have hinj : d.pack &&& m = v ↔ Dw.unpack (d.pack &&& m) = Dw.unpack v :=
    ⟨congrArg _, fun h => by rw [← Dw.pack_unpack (d.pack &&& m), h, Dw.pack_unpack]⟩
  have hcode : ∀ c c' : BitVec 4, Phase.ofCode c = Phase.ofCode c' ↔ c = c' := fun c c' =>
    ⟨fun h => by rw [← Phase.code_ofCode c, h, Phase.code_ofCode], congrArg _⟩
  have hkind : ∀ k k' : BitVec 2, k = k' ↔ k.getLsbD 1 = k'.getLsbD 1 ∧ k.getLsbD 0 = k'.getLsbD 0 := by decide
  rw [hinj]
  simp only [Dw.unpack, Dw.mk.injEq, hcode, BitVec.extractLsb'_and, BitVec.getLsbD_and, Dw.pack_ph, Dw.pack_bk, Dw.pack_q,
    hkind (d.bk &&& _)]
  simp only [Dw.getLsbD_pack, Nat.reduceEqDiff, Nat.reduceLT, if_true, if_false]
  simp

/-- R86: the micro-operation a dispatch word selects has a row in the map, and the word matches it. The cases are those of
`selectUop`; in each the row is looked up by the micro-operation's name. -/
theorem selectUop_row_matches (d : Dw) :
    ∃ v m, uopRows.find? (fun r => r.2.2 = selectUop d) = some (v, m, selectUop d) ∧ d.pack &&& m = v := by
  have hq : d.q ≠ 0 → d.q ≠ 1 → d.q ≠ 2 → d.q = 3 := by generalize d.q = q; revert q; decide
  simp only [Dw.pack_and_eq_iff]
  unfold selectUop
  split <;> rename_i hph <;> simp only [hph]
  all_goals split_ifs
  all_goals exact ⟨_, _, rfl, by simp_all [Phase.code]⟩

/-- R86: two rows of the map that one word could match are the same row. -/
theorem uopRows_exclusive :
    ∀ r ∈ uopRows, ∀ r' ∈ uopRows, r.1 &&& r'.2.1 = r'.1 &&& r.2.1 → r' = r := by
  decide

/-- Settles O3: the row of the selected micro-operation matches, and no word matches two rows. -/
theorem opcodeMapExclusiveAndTotal : Obligations.OpcodeMapExclusiveAndTotal := by
  intro w
  obtain ⟨v, m, hfind, hw⟩ := selectUop_row_matches (Dw.unpack w)
  rw [Dw.pack_unpack] at hw
  have hmem := List.mem_of_find?_eq_some hfind
  refine ⟨_, hmem, hw, rfl, fun r' hmem' hw' => uopRows_exclusive _ hmem r' hmem' ?_⟩
  rw [← hw, ← hw', BitVec.and_assoc, BitVec.and_assoc, BitVec.and_comm m]

/-- Settles O1: the words are literals. -/
theorem listedWordsDecode : Obligations.ListedWordsDecode := by
  unfold Obligations.ListedWordsDecode
  decide

end Sys2Proof
end

section
/-! SUPPORT. The bits of the dispatch word and of STATUS as functions of the state (30_encoding.md R85, R86), and the beats
where they are accepted (R82, R88(b)). -/

namespace Sys2Proof.Machine

/-! ## Fields of the dispatch word and of STATUS -/

theorem toNat_quadrant (t : BitVec 7) : (quadrant t).toNat = if t.toNat ≤ 79 then t.toNat / 20 else 0 := by
  unfold quadrant
  split
  · rw [BitVec.toNat_ofNat]; omega
  · rfl

/-- Settles O4: each field is read back from the packed word, and is the state's by the definition of the fields. -/
theorem dispatchWordBits : Obligations.DispatchWordBits := by
  intro s
  simp only [State.dispatchWord, Dw.pack_ph, Dw.pack_bk, Dw.pack_q, Dw.getLsbD_pack]
  simp [State.dw, toNat_quadrant, count_eq_countMax]

/-- R85: every bit of STATUS. -/
theorem getLsbD_status (s : State) (i : Nat) :
    s.status.getLsbD i =
      if i < 4 then s.ph.code.getLsbD i else if i = 4 then s.done else if i = 5 then s.faulted
      else s.cause.code.getLsbD (i - 6) := by
  change BitVec.getLsbD (w := 2 + 1 + 1 + 4)
    (s.cause.code ++ BitVec.ofBool s.faulted ++ BitVec.ofBool s.done ++ s.ph.code) i = _
  simp only [BitVec.getLsbD_append, Nat.sub_sub]
  by_cases h : i < 6
  · interval_cases i <;> simp
  · repeat rw [if_neg (by omega)]

theorem busy_iff (s : State) : s.busy = true ↔ s.ph ∈ [Phase.req, .fill, .load, .expand, .initv, .round, .acc] := by
  unfold State.busy
  cases s.ph <;> decide

theorem status_eq_of {s : State} {p : Phase} {c : Cause} (hp : s.ph = p) (hc : s.cause = c) :
    s.status = c.code ++ BitVec.ofBool (p == .fault) ++ BitVec.ofBool (p == .done) ++ p.code := by
  subst hp hc; rfl

/-- Settles O52: the fields are read back from STATUS, and phase and cause together determine its value. -/
theorem statusAndLevelOutputs : Obligations.StatusAndLevelOutputs := by
  intro s
  refine ⟨BitVec.extractLsb'_append_eq_right, getLsbD_status s 4, getLsbD_status s 5, ?_, by simp [State.done],
    by simp [State.faulted], busy_iff s, fun hs hp => ?_, fun hp hc => ?_, fun hp hc => ?_, fun hp hc => ?_⟩
  · exact (BitVec.extractLsb'_append_eq_of_le (by decide)).trans ((BitVec.extractLsb'_append_eq_of_le (by decide)).trans
      ((BitVec.extractLsb'_append_eq_of_le (by decide)).trans BitVec.extractLsb'_eq_self))
  · exact status_eq_of hp (hs.cause_eq_none (by simp [hp]))
  · exact status_eq_of hp hc
  · exact status_eq_of hp hc
  · exact status_eq_of hp hc

/-- Settles O49: the meaning of the two reserved codes is the refusal itself. -/
theorem reservedPrimitivesAreRefused : Obligations.ReservedPrimitivesAreRefused := by
  intro lo s
  rfl

/-! ## Beats where they are accepted -/

theorem offerBeat_of_offered {s : State} (h : s.inp.srcValid = true) : s.offerBeat s.inp.srcKind s.inp.srcData = s := by
  obtain ⟨_, _, _, _, _, _, _, _, _, _, _, ⟨⟩⟩ := s
  subst h
  rfl

section
variable {s : State} (hph : s.ph = .fill) (hl : s.fill.toNat < 64)
include hph hl

theorem acceptsBeat_offerBeat (k : BitVec 2) (b : Byte) : (s.offerBeat k b).acceptsBeat = true := by
  simp [State.acceptsBeat, hph, hl]

/-- R82, R88(b): in `FILL` with `FILL` below 64 each kind has the effect of its PAD micro-operation. -/
theorem exec_beatData (b : Byte) :
    exec (.beatData b) s =
      if s.count = countMax then padDataOvfOp (s.offerBeat 0b00 b) else padDataOp b (s.offerBeat 0b00 b) :=
  if_pos (acceptsBeat_offerBeat hph hl _ b)

theorem exec_beatEos (b : Byte) :
    exec (.beatEos b) s =
      if 56 ≤ s.fill.toNat then padEosSpillOp (s.offerBeat 0b01 b) else padEosFitOp (s.offerBeat 0b01 b) :=
  if_pos (acceptsBeat_offerBeat hph hl _ b)

theorem exec_beatErr (b : Byte) : exec (.beatErr b) s = padErrOp (s.offerBeat 0b10 b) :=
  if_pos (acceptsBeat_offerBeat hph hl _ b)

theorem exec_beatReserved (b : Byte) : exec (.beatReserved b) s = padErrOp (s.offerBeat 0b11 b) :=
  if_pos (acceptsBeat_offerBeat hph hl _ b)

section
variable (hv : s.inp.srcValid = true)
include hv

/-- R86: the rows of `FILL` with a beat offered, by its kind. -/
theorem selectUop_data (hk : s.inp.srcKind = 0b00) :
    selectUop s.dw = if s.count = countMax then .padDataOvf else .padData := by
  rw [selectUop_fill hph, if_neg hl.ne]
  simp [hv, hk, count_eq_countMax]

theorem selectUop_eos (hk : s.inp.srcKind = 0b01) :
    selectUop s.dw = if 56 ≤ s.fill.toNat then .padEosSpill else .padEosFit := by
  rw [selectUop_fill hph, if_neg hl.ne]
  simp [hv, hk]

theorem selectUop_err (hk : s.inp.srcKind = 0b10 ∨ s.inp.srcKind = 0b11) : selectUop s.dw = .padErr := by
  rw [selectUop_fill hph, if_neg hl.ne]
  rcases hk with hk | hk <;> simp [hv, hk]

/-- An offered beat and the micro-operation selected beside it, kind by kind. -/
theorem exec_decodeBeat_eq_selectUop :
    exec (decodeBeat (s.inp.srcKind ++ s.inp.srcData)) s = exec (selectUop s.dw) s := by
  have hself := offerBeat_of_offered hv
  have hkind : ∀ k : BitVec 2, k = 0 ∨ k = 1 ∨ k = 2 ∨ k = 3 := by decide
  rw [decodeBeat_append]
  rcases hkind s.inp.srcKind with hk | hk | hk | hk <;> rw [hk] at hself ⊢
  · rw [selectUop_data hph hl hv hk]
    refine (exec_beatData hph hl _).trans ?_
    rw [hself]
    split <;> rfl
  · rw [selectUop_eos hph hl hv hk]
    refine (exec_beatEos hph hl _).trans ?_
    rw [hself]
    split <;> rfl
  · rw [selectUop_err hph hl hv (.inl hk)]
    exact (exec_beatErr hph hl _).trans (congrArg padErrOp hself)
  · rw [selectUop_err hph hl hv (.inr hk)]
    exact (exec_beatReserved hph hl _).trans (congrArg padErrOp hself)

end

end

/-- Settles O21: the dispatch word selects by the fields of the state, and kind by kind that is what the beat does. -/
theorem beatsAreConsumedByTheSelectedMicroOperation : Obligations.BeatsAreConsumedByTheSelectedMicroOperation := by
  intro s hph hl hv
  rw [decodeUop_dispatchWord, exec_decodeBeat_eq_selectUop hph hl hv]

/-! ## The bytes a beat puts into the buffer -/

/-- R116: the terminator at index `F`, the length field above it, every other byte kept. -/
theorem read_terminator_length {m : Memory} (hm : m.wf = true) (c : BitVec 61) {F : Nat} (hF : F ≤ 55) (a : Nat) :
    (writeLength (m.write F terminator) c).read a =
      if a = F then 0x80 else if 56 ≤ a ∧ a < 64 then lenByte c (a - 56) else m.read a := by
  rw [read_writeLength (Memory.wf_write _ hm (by omega)), Memory.read_write _ hm]
  by_cases ha : 56 ≤ a ∧ a < 64
  · rw [if_pos ha, if_neg (by omega), if_pos ha, byteBE_bitLength c _ (by omega)]
  · simp only [if_neg ha, terminator]

/-- Settles O23: the PAD operation each beat runs is one memory write, with the length field where it fits. -/
theorem dataAndEosBeatsFillTheBuffer : Obligations.DataAndEosBeatsFillTheBuffer := by
  intro s b hph hl hm
  refine ⟨fun hc => ⟨_, ?_, Memory.read_write b hm _⟩, fun hF => ⟨_, ?_, read_terminator_length hm s.count hF⟩,
    fun hF => ⟨_, ?_, Memory.read_write terminator hm _⟩⟩
  · rw [exec_beatData hph hl, if_neg (by rw [count_eq_countMax]; omega)]
    obtain ⟨_, e⟩ | ⟨hn, _⟩ := padDataOp_cases b (s.offerBeat 0b00 b)
    · rw [e, ← hph]; rfl
    · exact absurd hn (by simpa using hl)
  · rw [exec_beatEos hph hl, if_neg (by omega)]
    obtain ⟨_, e⟩ | ⟨hn, _⟩ := padEosFitOp_cases (s.offerBeat 0b01 b)
    · exact e
    · exact absurd hn (by simpa using hl)
  · rw [exec_beatEos hph hl, if_pos hF]
    obtain ⟨_, e⟩ | ⟨hn, _⟩ := padEosSpillOp_cases (s.offerBeat 0b01 b)
    · exact e
    · exact absurd hn (by simpa using hl)

/-- R116, R117: `BUF` after the step that takes the EOS beat. -/
theorem buf_step_of_eos {s t : State} (hs : SequencerSteps s) (hph : s.ph = .fill) (hl : s.fill.toNat < 64)
    (hb : BeatOffered 0b01 s) (hstep : step s = .next t) :
    t.buf = if s.fill.toNat ≤ 55 then writeLength (s.buf.write s.fill.toNat terminator) s.count
      else s.buf.write s.fill.toNat terminator := by
  obtain ⟨-, -, hfit, hspill, -, -⟩ := rows_fill hs hph hl
  obtain ⟨-, hr, -⟩ := hs
  split
  · next hF =>
    rw [step_ok hr (hfit hb hF).1] at hstep
    obtain ⟨u, hu, rfl⟩ := afterExec_next hstep
    obtain ⟨-, o, rfl⟩ := padEosFitOp_next hu
    rfl
  · next hF =>
    rw [step_ok hr (hspill hb (by omega)).1] at hstep
    obtain ⟨u, hu, rfl⟩ := afterExec_next hstep
    obtain ⟨-, o, rfl⟩ := padEosSpillOp_next hu
    rfl

/-- Settles O32: every byte of the block is read off the two memory laws; beyond `FILL` it is the zero of the clear. -/
theorem finalBlockBytes : Obligations.FinalBlockBytes := by
  intro s t hs hz hseq hph hl hb hstep
  have hbuf := buf_step_of_eos hseq hph hl hb hstep
  by_cases hF : s.fill.toNat ≤ 55
  · have hread := read_terminator_length hs.bufWf s.count hF
    rw [if_pos hF] at hbuf
    rw [← hbuf] at hread
    refine ⟨fun a ha => ?_, ?_, fun _ => ⟨fun a h1 h2 => ?_, fun k hk => ?_⟩, fun h => by omega⟩
    · rw [hread, if_neg (by omega), if_neg (by omega)]
    · rw [hread, if_pos rfl]
    · rw [hread, if_neg (by omega), if_neg (by omega), hz hph a (by omega)]
    · rw [hread, if_neg (by omega), if_pos (by omega), Nat.add_sub_cancel_left]
  · have hread := Memory.read_write terminator hs.bufWf s.fill.toNat
    rw [if_neg hF] at hbuf
    rw [← hbuf] at hread
    refine ⟨fun a ha => ?_, ?_, fun h => by omega, fun _ a h1 _ => ?_⟩
    · rw [hread, if_neg (by omega)]
    · rw [hread, if_pos rfl, terminator]
    · rw [hread, if_neg (by omega), hz hph a (by omega)]

end Sys2Proof.Machine
end

section
/-! SUPPORT. An instruction placed for the next step is the one fetched (log 22): what the placing operations leave unchanged,
then the fetch format by format. -/

namespace Sys2Proof.Machine

/-! ## What the placing operations write -/

section
variable (lo hi : Nat) (s : State)

@[simp] theorem State.fillFrom_ph : (s.fillFrom lo hi).ph = s.ph := by unfold State.fillFrom; split <;> rfl
@[simp] theorem State.fillFrom_count : (s.fillFrom lo hi).count = s.count := by unfold State.fillFrom; split <;> rfl
@[simp] theorem State.fillFrom_inp : (s.fillFrom lo hi).inp = s.inp := by unfold State.fillFrom; split <;> rfl
@[simp] theorem State.fillFrom_probe : (s.fillFrom lo hi).probe = s.probe := by unfold State.fillFrom; split <;> rfl

@[simp] theorem State.tFrom_ph : (s.tFrom lo hi).ph = s.ph := by unfold State.tFrom; split <;> rfl
@[simp] theorem State.tFrom_inp : (s.tFrom lo hi).inp = s.inp := by unfold State.tFrom; split <;> rfl
@[simp] theorem State.tFrom_probe : (s.tFrom lo hi).probe = s.probe := by unfold State.tFrom; split <;> rfl

@[simp] theorem State.countBelowMax_ph : s.countBelowMax.ph = s.ph := by unfold State.countBelowMax; split <;> rfl
@[simp] theorem State.countBelowMax_fill : s.countBelowMax.fill = s.fill := by unfold State.countBelowMax; split <;> rfl
@[simp] theorem State.countBelowMax_inp : s.countBelowMax.inp = s.inp := by unfold State.countBelowMax; split <;> rfl
@[simp] theorem State.countBelowMax_probe : s.countBelowMax.probe = s.probe := by unfold State.countBelowMax; split <;> rfl

@[simp] theorem State.startPhase_inp : s.startPhase.inp = s.inp := by unfold State.startPhase; split <;> rfl
@[simp] theorem State.startPhase_probe : s.startPhase.probe = s.probe := by unfold State.startPhase; split <;> rfl

variable {lo hi}

theorem State.fillFrom_mem (h : lo ≤ hi) (hhi : hi < 128) :
    lo ≤ (s.fillFrom lo hi).fill.toNat ∧ (s.fillFrom lo hi).fill.toNat ≤ hi := by
  unfold State.fillFrom
  split
  · assumption
  · rw [BitVec.toNat_ofNat]; omega

theorem State.tFrom_mem (h : lo ≤ hi) (hhi : hi < 128) :
    lo ≤ (s.tFrom lo hi).t.toNat ∧ (s.tFrom lo hi).t.toNat ≤ hi := by
  unfold State.tFrom
  split
  · assumption
  · rw [BitVec.toNat_ofNat]; omega

theorem State.countBelowMax_count_ne : s.countBelowMax.count ≠ countMax := by
  unfold State.countBelowMax
  split
  · exact (by decide : (0 : BitVec 61) ≠ countMax)
  · assumption

theorem State.acceptsStart_startPhase : s.startPhase.acceptsStart = true := by
  unfold State.startPhase
  split
  · assumption
  · rfl

end

/-! ## The fetch, format by format -/

theorem withFetch_rst (s : State) (i : Instr) : (s.withFetch i).inp.rst = none := by
  cases i <;> simp [State.withFetch, State.sequencerNext, State.noBeat]

/-- A beat or a micro-operation is placed with no unit to run on its own and no command offered. -/
theorem withFetch_sequencer (s : State) {i : Instr} (hi : (encode i).1 = .uop ∨ (encode i).1 = .beat) :
    (s.withFetch i).probe = none ∧ (s.withFetch i).takesCommand = false := by
  have hcmd : (encode i).1 = .uop ∨ (encode i).1 = .beat →
      (s.withFetch i).probe = none ∧ (s.withFetch i).inp.cmdValid = false := by
    cases i
    case primReserved lo => cases lo <;> simp [encode]
    all_goals simp [State.withFetch, State.sequencerNext, State.noBeat, encode]
  obtain ⟨hp, hv⟩ := hcmd hi
  exact ⟨hp, by simp [State.takesCommand, hv]⟩

theorem fetch_withFetch_cmd (s : State) {i : Instr} (hi : (encode i).1 = .cmd) : (s.withFetch i).fetch = .ok i := by
  have hfetch {q : State} {c : BitVec 2} (hp : q.probe = none) (hc : c ≠ 1 ∨ q.acceptsStart = true) :
      (q.offerCmd c).fetch = .ok (decodeCmd c) :=
    fetch_command hp (Bool.or_eq_true_iff.2 (hc.imp_left decide_eq_true))
  cases i
  case cmdNop => exact hfetch rfl (.inl (by decide))
  case cmdStart => exact hfetch (State.startPhase_probe _) (.inr (State.acceptsStart_startPhase _))
  case cmdReserved lo => cases lo <;> exact hfetch rfl (.inl (by decide))
  case primReserved lo => cases lo <;> cases hi
  all_goals cases hi

theorem lt_of_decode_eq_ok {f : Format} {w : Nat} {i : Instr} (h : decode f w = .ok i) : w < 2 ^ f.width := by
  by_contra hw
  unfold decode at h
  rw [if_neg hw] at h
  cases h

/-- A placed primitive is decoded from its own encoding. -/
theorem fetch_withFetch_prim (s : State) {i : Instr} (hwf : wellFormed i = true) (hi : (encode i).1 = .prim) :
    (s.withFetch i).fetch = .ok i := by
  have hprobe : (s.withFetch i).probe = some (.prim (BitVec.ofNat 72 (encode i).2)) := by
    cases i
    case add32 | rotl32 | and32 | or32 | xor32 | not32 | primReserved => rfl
    all_goals cases hi
  have hdec := decodeOfEncode i hwf
  rw [hi] at hdec
  have hfit : (encode i).2 < 2 ^ 72 := lt_of_decode_eq_ok hdec
  rw [State.fetch, State.nextWord, hprobe]
  simpa only [BitVec.toNat_ofNat, Nat.mod_eq_of_lt hfit] using hdec

/-- Where a beat is to be consumed the read is in progress, with room for a byte. -/
theorem withFetch_reading (s : State) {i : Instr}
    (hi : (encode i).1 = .beat ∨ i ∈ [Instr.padWait, .padData, .padDataOvf, .padEosFit, .padEosSpill, .padErr]) :
    (s.withFetch i).ph = .fill ∧ (s.withFetch i).fill.toNat < 64 := by
  have hF (q : State) {lo hi : Nat} (h : lo ≤ hi) (h63 : hi ≤ 63) : (q.fillFrom lo hi).fill.toNat < 64 := by
    have := q.fillFrom_mem h (by omega)
    omega
  cases i
  case beatData | padData =>
    simp only [State.withFetch, State.offerBeat_ph, State.offerBeat_fill, State.countBelowMax_ph, State.countBelowMax_fill]
    exact ⟨State.fillFrom_ph .., hF _ (by decide) (by decide)⟩
  case beatEos | beatErr | beatReserved | padWait | padDataOvf | padEosFit | padEosSpill | padErr =>
    exact ⟨State.fillFrom_ph .., hF _ (by decide) (by decide)⟩
  case primReserved lo => cases lo <;> simp [encode] at hi
  all_goals simp [encode] at hi

theorem selectUop_withFetch_fill (s : State) {i : Instr}
    (hi : i ∈ [Instr.padWait, .padData, .padDataOvf, .padEosFit, .padEosSpill, .padErr]) :
    selectUop (s.withFetch i).dw = i := by
  obtain ⟨hph, hl⟩ := withFetch_reading s (.inr hi)
  simp only [List.mem_cons, List.not_mem_nil, or_false] at hi
  rcases hi with rfl | rfl | rfl | rfl | rfl | rfl
  · exact (selectUop_fill hph).trans ((if_neg hl.ne).trans (if_pos rfl))
  · exact (selectUop_data hph hl rfl rfl).trans (if_neg (State.countBelowMax_count_ne _))
  · exact (selectUop_data hph hl rfl rfl).trans (if_pos (State.fillFrom_count ..))
  · have hF : (s.withFetch .padEosFit).fill.toNat ≤ 55 := (State.fillFrom_mem _ (by decide) (by decide)).2
    exact (selectUop_eos hph hl rfl rfl).trans (if_neg (by omega))
  · have hF : 56 ≤ (s.withFetch .padEosSpill).fill.toNat := (State.fillFrom_mem _ (by decide) (by decide)).1
    exact (selectUop_eos hph hl rfl rfl).trans (if_pos hF)
  · exact selectUop_err hph hl rfl (.inl rfl)

/-- A row that tests the phase and a range of `T` is selected once both are placed. -/
theorem selectUop_tFrom {p : Phase} {lo hi : Nat} {i : Instr} (q : State) (h : lo ≤ hi) (hhi : hi < 128)
    (hrow : ∀ u : State, u.ph = p → lo ≤ u.t.toNat → u.t.toNat ≤ hi → selectUop u.dw = i) :
    selectUop (State.tFrom lo hi { q with ph := p }).dw = i := by
  obtain ⟨hlo, hle⟩ := State.tFrom_mem { q with ph := p } h hhi
  exact hrow _ (State.tFrom_ph ..) hlo hle

theorem selectUop_withFetch (s : State) {i : Instr} (hi : (encode i).1 = .uop) : selectUop (s.withFetch i).dw = i := by
  cases i
  case padWait | padData | padDataOvf | padEosFit | padEosSpill | padErr => exact selectUop_withFetch_fill s (by simp)
  case padFull =>
    have hF : 64 ≤ (s.withFetch .padFull).fill.toNat ∧ (s.withFetch .padFull).fill.toNat ≤ 64 :=
      State.fillFrom_mem _ (by decide) (by decide)
    exact (selectUop_fill (State.fillFrom_ph ..)).trans (if_pos (by omega))
  case ceExpand =>
    refine selectUop_tFrom _ (by decide) (by decide) fun u hp hlo hhi => ?_
    rw [selectUop_expand hp, if_neg (by omega), if_neg (by omega)]
  case seqInvExpandHigh =>
    refine selectUop_tFrom _ (by decide) (by decide) fun u hp hlo hhi => ?_
    rw [selectUop_expand hp, if_pos (by omega)]
  case seqInvExpandLow =>
    refine selectUop_tFrom _ (by decide) (by decide) fun u hp hlo hhi => ?_
    rw [selectUop_expand hp, if_neg (by omega), if_pos (by omega)]
  case ceRoundF0 =>
    refine selectUop_tFrom _ (by decide) (by decide) fun u hp hlo hhi => ?_
    rw [selectUop_round hp, if_neg (by omega), if_pos (by omega)]
  case ceRoundF1 =>
    refine selectUop_tFrom _ (by decide) (by decide) fun u hp hlo hhi => ?_
    rw [selectUop_round hp, if_neg (by omega), if_neg (by omega), if_pos (by omega)]
  case ceRoundF2 =>
    refine selectUop_tFrom _ (by decide) (by decide) fun u hp hlo hhi => ?_
    rw [selectUop_round hp, if_neg (by omega), if_neg (by omega), if_neg (by omega), if_pos (by omega)]
  case ceRoundF3 =>
    refine selectUop_tFrom _ (by decide) (by decide) fun u hp hlo hhi => ?_
    rw [selectUop_round hp, if_neg (by omega), if_neg (by omega), if_neg (by omega), if_neg (by omega)]
  case seqInvRoundHigh =>
    refine selectUop_tFrom _ (by decide) (by decide) fun u hp hlo hhi => ?_
    rw [selectUop_round hp, if_pos (by omega)]
  case primReserved lo => cases lo <;> cases hi
  case cmdNop | cmdStart | cmdReserved | beatData | beatEos | beatErr | beatReserved | add32 | rotl32 | and32 | or32 |
    xor32 | not32 | fmtHex => cases hi
  all_goals rfl

/-- A placed instruction other than a beat is fetched as itself. -/
theorem fetch_withFetch (s : State) {i : Instr} (hwf : wellFormed i = true) (hb : (encode i).1 ≠ .beat) :
    (s.withFetch i).fetch = .ok i := by
  cases hf : (encode i).1
  case cmd => exact fetch_withFetch_cmd s hf
  case beat => exact absurd hf hb
  case uop =>
    obtain ⟨hp, hc⟩ := withFetch_sequencer s (.inl hf)
    rw [fetch_sequencer hp hc, selectUop_withFetch s hf]
  case prim => exact fetch_withFetch_prim s hwf hf
  case fmt =>
    cases i
    case fmtHex => rfl
    case primReserved lo => cases lo <;> cases hf
    all_goals cases hf

theorem beat_of_encode {i : Instr} (hb : (encode i).1 = .beat) :
    ∃ b, i = .beatData b ∨ i = .beatEos b ∨ i = .beatErr b ∨ i = .beatReserved b := by
  cases i
  case beatData b | beatEos b | beatErr b | beatReserved b => exact ⟨b, by simp⟩
  case primReserved lo => cases lo <;> cases hb
  all_goals cases hb

/-- A placed beat is on the source lines in its own encoding. -/
theorem withFetch_beat (s : State) {i : Instr} (hwf : wellFormed i = true) (hb : (encode i).1 = .beat) :
    (s.withFetch i).inp.srcValid = true ∧
      decodeBeat ((s.withFetch i).inp.srcKind ++ (s.withFetch i).inp.srcData) = i := by
  have hlines : (s.withFetch i).inp.srcValid = true ∧
      ((s.withFetch i).inp.srcKind ++ (s.withFetch i).inp.srcData).toNat = (encode i).2 := by
    obtain ⟨b, rfl | rfl | rfl | rfl⟩ := beat_of_encode hb <;> exact ⟨rfl, rfl⟩
  obtain ⟨hv, hword⟩ := hlines
  have hdec := decodeOfEncode i hwf
  rw [hb, ← hword] at hdec
  exact ⟨hv, Except.ok.inj ((decode_beat _).symm.trans hdec)⟩

/-- Settles O5: a beat is fetched as the micro-operation selected while it is offered, which has the beat's own effect;
every other instruction is fetched as itself. -/
theorem placedInstructionIsFetched : Obligations.PlacedInstructionIsFetched := by
  intro s i hwf
  refine ⟨withFetch_rst s i, ?_⟩
  by_cases hb : (encode i).1 = .beat
  · obtain ⟨hp, hc⟩ := withFetch_sequencer s (.inr hb)
    obtain ⟨hph, hl⟩ := withFetch_reading s (.inl hb)
    obtain ⟨hv, hdec⟩ := withFetch_beat s hwf hb
    have hexec := exec_decodeBeat_eq_selectUop hph hl hv
    rw [hdec] at hexec
    refine ⟨_, fetch_sequencer hp hc, hexec.symm, fun hne => ?_⟩
    obtain ⟨b, hi⟩ := beat_of_encode hb
    have := hne b
    tauto
  · exact ⟨i, fetch_withFetch s hwf hb, rfl, fun _ => rfl⟩

end Sys2Proof.Machine
end

section
/-! SUPPORT. The word primitives run on their own (40_word.md R101 to R106, R108; log 8, log 9). -/

namespace Sys2Proof.Machine

/-! ## ROTL32 -/

/-- R102: an amount below 32 rotates. -/
theorem exec_rotl32_of_lt (a : Word) {n : Word} (s : State) (hn : n.toNat < 32) :
    exec (.rotl32 a n) s = .next (s.showWord (rotl32 a ⟨n.toNat, hn⟩)) :=
  dif_pos hn

/-- V13: an amount of 32 or more is not reduced. -/
theorem exec_rotl32_of_ge (a : Word) {n : Word} (s : State) (hn : 32 ≤ n.toNat) :
    exec (.rotl32 a n) s = .refused .rotAmount :=
  dif_neg (Nat.not_lt.mpr hn)

/-- R102: bit `i` moves up by `n`; the bits moved past bit 31 come back in at bit 0. -/
theorem getLsbD_rotl32 (a : Word) (n : Fin 32) {i : Nat} (hi : i < 32) :
    (rotl32 a n).getLsbD ((i + n.val) % 32) = a.getLsbD i := by
  have hn := n.isLt
  rw [rotl32_eq_rotateLeft, BitVec.getLsbD_rotateLeft_of_le hn]
  by_cases hwrap : i + n.val < 32
  · have hpos : (i + n.val) % 32 = i + n.val := Nat.mod_eq_of_lt hwrap
    simp [hpos, hwrap]
  · have hpos : (i + n.val) % 32 = i + n.val - 32 := by omega
    have hback : 32 - n.val + (i + n.val - 32) = i := by omega
    have hlow : i + n.val - 32 < n.val := by omega
    simp [hpos, hback, hlow]

/-- Settles O47: the bits are those of the rotation, and the amount alone decides between the two outcomes. -/
theorem rotl32RotatesBelow32AndRefusesAbove : Obligations.Rotl32RotatesBelow32AndRefusesAbove := by
  intro a n s
  exact ⟨fun hn => ⟨_, exec_rotl32_of_lt a s hn, fun _ => getLsbD_rotl32 a ⟨n.toNat, hn⟩⟩, exec_rotl32_of_ge a s⟩

/-! ## ADD32 and the bitwise primitives -/

/-- Settles O46: ADD32 is the library's wrapping addition, whose laws then apply. -/
theorem add32WrapsModulo2To32 : Obligations.Add32WrapsModulo2To32 := by
  intro a b c s
  refine ⟨add32 a b, rfl, ?_, ?_, ?_⟩ <;> simp only [add32_eq_add]
  · exact BitVec.toNat_add a b
  · exact BitVec.add_comm a b
  · exact BitVec.add_assoc a b c

/-- R106. -/
theorem getLsbD_not32 (a : Word) {i : Nat} (hi : i < 32) : (not32 a).getLsbD i = !a.getLsbD i := by
  simp [not32, hi]

/-- Settles O48: the four outcomes are the definitions; each result is read bit by bit. -/
theorem bitwisePrimitives : Obligations.BitwisePrimitives := by
  intro a b s
  refine ⟨and32 a b, or32 a b, xor32 a b, not32 a, rfl, rfl, rfl, rfl, fun i hi => ?_⟩
  exact ⟨BitVec.getLsbD_and, BitVec.getLsbD_or, BitVec.getLsbD_xor, getLsbD_not32 a hi⟩

end Sys2Proof.Machine
end

section
/-! SUPPORT. The micro-operations of the Block Padder, each as one update of the state and, byte by byte, of `BUF`
(41_padder.md R111 to R119, R125), and what a read in progress keeps (R24, R113, R114, R124). -/

namespace Sys2Proof.Machine

/-! ## The beats that enter the fault -/

/-- Settles O24: where beats are accepted each of the three is its PAD operation, and that is the fault entry of R197. -/
theorem faultingBeats : Obligations.FaultingBeats := by
  intro s b hph hl
  refine ⟨exec_beatErr hph hl b, exec_beatReserved hph hl b, fun hc => ?_⟩
  exact (exec_beatData hph hl b).trans (if_pos ((count_eq_countMax s).2 hc))

/-! ## The rows of `REQ` -/

/-- The row of `REQ` is fetched when the sequencer's own step is next. -/
theorem fetch_req {s : State} (hs : SequencerSteps s) (hph : s.ph = .req) :
    s.fetch = .ok (if s.exh then .padNextExh else if s.owed then .padNextOwed else .padNextRead) := by
  obtain ⟨hp, -, hc⟩ := hs
  rw [fetch_sequencer hp hc, selectUop_req hph]

/-- Settles O25: `EXH` is the first test of the row. -/
theorem padNextExhEndsTheSequence : Obligations.PadNextExhEndsTheSequence := by
  intro s
  refine ⟨rfl, fun hs hph he => ?_⟩
  rw [fetch_req hs hph, if_pos he]

/-- Settles O26: the length field is the only write into the cleared buffer. -/
theorem padNextOwedEmitsTheLengthBlock : Obligations.PadNextOwedEmitsTheLengthBlock := by
  intro s
  have hread := read_writeLength Memory.wf_cleared s.count
  refine ⟨writeLength Memory.cleared s.count, rfl, fun a ha => ?_, fun k hk => ?_⟩
  · rw [hread, if_neg (by omega), Memory.read_cleared, Memory.unlisted]
  · rw [hread, if_pos (by omega), Nat.add_sub_cancel_left, byteBE_bitLength _ _ hk]

/-- Settles O27: an unlisted byte of the cleared buffer is zero, and the row is the one left when both flags are clear. -/
theorem padNextReadClearsTheBuffer : Obligations.PadNextReadClearsTheBuffer := by
  intro s
  refine ⟨⟨Memory.cleared, rfl, fun a _ => Memory.read_cleared a⟩, fun hs hph he ho => ?_⟩
  rw [fetch_req hs hph, he, ho]
  rfl

/-! ## The rows of `FILL` -/

/-- Settles O28: the two meanings are these updates. -/
theorem padFullEmitsAndPadWaitHolds : Obligations.PadFullEmitsAndPadWaitHolds :=
  fun _ => ⟨rfl, rfl⟩

/-- Settles O29: one memory write, and neither counter wraps. -/
theorem padDataStoresOneByte : Obligations.PadDataStoresOneByte := by
  intro s hl hc hm
  obtain ⟨_, hx⟩ | ⟨hout, _⟩ := padDataOp_cases s.inp.srcData s
  · refine ⟨_, _, _, hx, ?_, ?_, Memory.wf_write _ hm hl, Memory.read_write _ hm _⟩
    · bv_omega
    · bv_omega
  · omega

/-- Settles O30: the terminator is written first, the length field over bytes above it. -/
theorem padEosFitAppendsTerminatorAndLength : Obligations.PadEosFitAppendsTerminatorAndLength := by
  intro s hF hm
  obtain ⟨_, hx⟩ | ⟨hout, _⟩ := padEosFitOp_cases s
  · exact ⟨_, hx, read_terminator_length hm s.count hF⟩
  · omega

/-- Settles O31: the terminator is the only byte written. -/
theorem padEosSpillAppendsTerminator : Obligations.PadEosSpillAppendsTerminator := by
  intro s _ h63 hm
  obtain ⟨_, hx⟩ | ⟨hout, _⟩ := padEosSpillOp_cases s
  · exact ⟨_, hx, Memory.read_write terminator hm _⟩
  · omega

/-! ## No beat after the end of the stream -/

/-- Settles O20: a beat is accepted in `FILL` only, where the invariants have both flags clear. -/
theorem noBeatAfterEndOfStream : Obligations.NoBeatAfterEndOfStream := by
  intro s t hs hend hstep
  rcases step_cases hstep with ⟨_, rfl⟩ | ⟨i, u, _, hf, hx, rfl⟩
  · rfl
  · obtain ⟨-, -, -, -, -, -, -, -, -, haccept, -⟩ := exec_ports hf hx
    have hph : s.ph ≠ .fill := hend.elim hs.finished hs.reading
    exact Bool.eq_false_iff.2 fun ha => hph (haccept ha).1

/-! ## Zero bytes beyond `FILL` -/

theorem zeroBeyondFill_of_ph_ne {u : State} (h : u.ph ≠ .fill) : ZeroBeyondFill u :=
  fun hu => absurd hu h

theorem ZeroBeyondFill.of_sameCore {s u : State} (hz : ZeroBeyondFill s) (h : SameCore s u) : ZeroBeyondFill u := by
  obtain ⟨hph, -, -, hfill, -, -, -, -, -, -, hbuf⟩ := h
  unfold ZeroBeyondFill
  rw [hph, hfill, hbuf]
  exact hz

/-- R170 to R172: an accepted START leads to `REQ`, every other command changes nothing. -/
theorem ph_req_or_sameCore_of_command {s u : State} (hc : s.takesCommand = true)
    (hx : exec (decodeCmd s.inp.cmd) s = .next u) : u.ph = .req ∨ SameCore s u := by
  by_cases h1 : s.inp.cmd = 1
  · have hacc : (s.offerCmd 1).acceptsStart = true := by
      simpa [State.acceptsStart] using (takesCommand_start hc h1).2
    rw [h1] at hx
    cases (if_pos hacc).symm.trans hx
    exact .inl rfl
  · obtain ⟨v, hv, hsame⟩ := exec_decodeCmd_sameCore s h1
    cases hv.symm.trans hx
    exact .inr hsame

/-- R39: phase `FILL` is entered from `REQ` only. -/
theorem ph_ne_fill_of_exec_selectUop {s u : State} (hreq : s.ph ≠ .req) (hfill : s.ph ≠ .fill)
    (hx : exec (selectUop s.dw) s = .next u) : u.ph ≠ .fill := by
  cases hph : s.ph
  case req => exact absurd hph hreq
  case fill => exact absurd hph hfill
  case expand =>
    rw [selectUop_expand hph] at hx
    obtain ⟨v, hv, hp⟩ := execCeExpand_has_next s
    split_ifs at hx
    · cases hx; simp
    · cases hx; simp
    · cases hv.symm.trans hx
      rw [hp]; split_ifs <;> simp
  case round =>
    have hround {f : Word → Word → Word → Word} {k : Word} (h : roundOp f k s = .next u) : u.ph ≠ .fill := by
      obtain ⟨v, hv, hp⟩ := roundOp_has_next f k s
      cases hv.symm.trans h
      rw [hp]; split_ifs <;> simp
    rw [selectUop_round hph] at hx
    split_ifs at hx
    · cases hx; simp
    all_goals exact hround hx
  all_goals
    simp only [selectUop, State.dw, hph] at hx
    cases hx
    simp [hph]

section
variable {s u : State}

/-- R113: the read begins with every byte zero; the other two rows of `REQ` leave for another phase. -/
theorem zeroBeyondFill_exec_req (hph : s.ph = .req) (hx : exec (selectUop s.dw) s = .next u) : ZeroBeyondFill u := by
  rw [selectUop_req hph] at hx
  split_ifs at hx
  · cases hx; exact zeroBeyondFill_of_ph_ne (by simp)
  · cases hx; exact zeroBeyondFill_of_ph_ne (by simp)
  · cases hx; exact fun _ a _ => Memory.read_cleared a

variable (hm : s.buf.wf = true) (hz : ZeroBeyondFill s)
include hm hz

/-- R114: the byte stored at index `FILL` is below the new `FILL`. -/
theorem zeroBeyondFill_padDataOp {b : Byte} (hph : s.ph = .fill) (hx : padDataOp b s = .next u) :
    ZeroBeyondFill u := by
  obtain ⟨hl, rfl⟩ := padDataOp_next hx
  intro _ a (ha : (s.fill + 1).toNat ≤ a)
  have hlt : s.fill.toNat < a := by bv_omega
  rw [Memory.read_write _ hm, if_neg (by omega), hz hph a (by omega)]

/-- Of the rows of `FILL` only PAD.WAIT and PAD.DATA stay in the phase. -/
theorem zeroBeyondFill_exec_fill (hph : s.ph = .fill) (hx : exec (selectUop s.dw) s = .next u) :
    ZeroBeyondFill u := by
  rw [selectUop_fill hph] at hx
  split_ifs at hx
  · cases hx; exact zeroBeyondFill_of_ph_ne (by simp)
  · cases hx; exact hz.of_sameCore (sameCore_quiet s)
  · cases hx; exact zeroBeyondFill_of_ph_ne (by simp)
  · obtain ⟨_, o, rfl⟩ := padEosSpillOp_next hx; exact zeroBeyondFill_of_ph_ne (by simp)
  · obtain ⟨_, o, rfl⟩ := padEosFitOp_next hx; exact zeroBeyondFill_of_ph_ne (by simp)
  · cases hx; exact zeroBeyondFill_of_ph_ne (by simp)
  · exact zeroBeyondFill_padDataOp hm hz hph hx

theorem zeroBeyondFill_exec_selectUop (hx : exec (selectUop s.dw) s = .next u) : ZeroBeyondFill u := by
  by_cases hreq : s.ph = .req
  · exact zeroBeyondFill_exec_req hreq hx
  · by_cases hfill : s.ph = .fill
    · exact zeroBeyondFill_exec_fill hm hz hfill hx
    · exact zeroBeyondFill_of_ph_ne (ph_ne_fill_of_exec_selectUop hreq hfill hx)

theorem zeroBeyondFill_exec {i : Instr} (hf : s.fetch = .ok i) (hx : exec i s = .next u) : ZeroBeyondFill u := by
  by_cases hp : s.probe = none
  · rcases fetch_cases hp with ⟨hc, hf'⟩ | ⟨_, hf'⟩ <;> cases hf.symm.trans hf'
    · rcases ph_req_or_sameCore_of_command hc hx with hreq | hsame
      · exact zeroBeyondFill_of_ph_ne (by simp [hreq])
      · exact hz.of_sameCore hsame
    · exact zeroBeyondFill_exec_selectUop hm hz hx
  · exact hz.of_sameCore (exec_probe_sameCore hp hf hx)

end

/-- Settles O14: a reset leaves for `IDLE`; a fetched instruction keeps the bytes, and so does the end of the step. -/
theorem stepKeepsZeroBeyondFill : Obligations.StepKeepsZeroBeyondFill := by
  intro s t hs hz hstep
  rcases step_cases hstep with ⟨_, rfl⟩ | ⟨i, u, _, hf, hx, rfl⟩
  · exact zeroBeyondFill_of_ph_ne (by simp)
  · exact (zeroBeyondFill_exec hs.bufWf hz hf hx).of_sameCore (sameCore_envTick u)

end Sys2Proof.Machine
end

section
/-! SUPPORT. The micro-operations of the Compression Engine, each as one update of the state (42_compress.md R141 to
R151), and that the fault of R153 is unreachable (R193). -/

namespace Sys2Proof.Machine

/-! ## The phases with one row -/

theorem selectUop_load {s : State} (h : s.ph = .load) : selectUop s.dw = .ceLoad := by
  simp [selectUop, State.dw, h]

theorem selectUop_initv {s : State} (h : s.ph = .initv) : selectUop s.dw = .ceInitv := by
  simp [selectUop, State.dw, h]

theorem selectUop_acc {s : State} (h : s.ph = .acc) : selectUop s.dw = .ceAcc := by
  simp [selectUop, State.dw, h]

theorem SequencerSteps.fetch {s : State} (hs : SequencerSteps s) : s.fetch = .ok (selectUop s.dw) := by
  obtain ⟨hp, -, hc⟩ := hs
  exact fetch_sequencer hp hc

/-! ## CE.LOAD -/

/-- R52: a block word is the big-endian number of its four bytes, which fits in 32 bits. -/
theorem toNat_blockWord (m : Memory) (i : Nat) :
    (blockWord m i).toNat = (m.read (4 * i)).toNat * 2 ^ 24 + (m.read (4 * i + 1)).toNat * 2 ^ 16 +
      (m.read (4 * i + 2)).toNat * 2 ^ 8 + (m.read (4 * i + 3)).toNat := by
  have h0 := (m.read (4 * i)).isLt
  have h1 := (m.read (4 * i + 1)).isLt
  have h2 := (m.read (4 * i + 2)).isLt
  have h3 := (m.read (4 * i + 3)).isLt
  rw [blockWord, BitVec.toNat_ofNat, Memory.readBE_four, Nat.mod_eq_of_lt (by omega)]

/-- Settles O35: the schedule after CE.LOAD is `loadSchedule`, read word by word. -/
theorem ceLoadReadsBigEndianWords : Obligations.CeLoadReadsBigEndianWords := by
  intro s
  refine ⟨⟨loadSchedule s.buf s.w, rfl, fun i hi => ?_, fun i hi h80 => ?_⟩, fun hs hph => ?_⟩
  · rw [getElem_loadSchedule _ _ _ (by omega), if_pos hi, toNat_blockWord]
  · rw [getElem_loadSchedule _ _ _ h80, if_neg (by omega)]
  · rw [hs.fetch, selectUop_load hph]

/-! ## CE.EXPAND -/

theorem expandWord_eq (w3 w8 w14 w16 : Word) : expandWord w3 w8 w14 w16 = (w3 ^^^ w8 ^^^ w14 ^^^ w16).rotateLeft 1 :=
  rotl32_eq_rotateLeft _ 1

/-- R142: CE.EXPAND inside its range, as one update. -/
theorem exec_ceExpand {s : State} (h : 16 ≤ s.t.toNat ∧ s.t.toNat ≤ 79) :
    exec .ceExpand s = .next { s with
      w := s.w.set s.t.toNat (expandWord s.w[s.t.toNat - 3] s.w[s.t.toNat - 8] s.w[s.t.toNat - 14] s.w[s.t.toNat - 16])
      t := if s.t.toNat = 79 then s.t else s.t + 1
      ph := if s.t.toNat = 79 then .initv else .expand
      out := Outputs.quiet } := by
  rcases execCeExpand_cases s with ⟨_, ⟨h79, e⟩ | ⟨hlt, e⟩⟩ | ⟨hout, _⟩
  · simp only [if_pos h79]; exact e
  · simp only [if_neg hlt.ne]; exact e
  · omega

/-- Settles O36: inside the range one word of `W` is set; outside it nothing is left but the fault. -/
theorem ceExpandComputesOneScheduleWord : Obligations.CeExpandComputesOneScheduleWord := by
  intro s
  refine ⟨fun h => ⟨_, exec_ceExpand h, ?_, fun i hi hne => ?_⟩, fun h => ?_⟩
  · rw [Vector.getElem_set_self, expandWord_eq]
  · rw [Vector.getElem_set_ne _ hi hne.symm]
  · exact dif_neg (by omega)

/-! ## CE.INITV -/

/-- Settles O37: the update is the meaning, and `INITV` has one row. -/
theorem ceInitvCopiesTheDigestState : Obligations.CeInitvCopiesTheDigestState := by
  intro s
  refine ⟨rfl, fun hs hph => ?_⟩
  rw [hs.fetch, selectUop_initv hph]

/-! ## The round function and the round constant -/

/-- R144: the round function of each quadrant. -/
theorem roundFn_by_quadrant (t : Nat) :
    (t ≤ 19 → roundFn t = roundF0) ∧ (20 ≤ t → t ≤ 39 → roundFn t = roundF1) ∧
      (40 ≤ t → t ≤ 59 → roundFn t = roundF2) ∧ (60 ≤ t → roundFn t = roundF3) := by
  refine ⟨fun h1 => ?_, fun h0 h1 => ?_, fun h0 h1 => ?_, fun h0 => ?_⟩
  · exact if_pos (by omega)
  · rw [roundFn, if_neg (by omega), if_pos (by omega)]
  · rw [roundFn, if_neg (by omega), if_neg (by omega), if_pos (by omega)]
  · rw [roundFn, if_neg (by omega), if_neg (by omega), if_neg (by omega)]

/-- Settles O40: the chain of tests is followed to the quadrant of `t`. -/
theorem roundConstantsByQuadrant : Obligations.RoundConstantsByQuadrant := by
  intro t
  refine ⟨fun h1 => ?_, fun h0 h1 => ?_, fun h0 h1 => ?_, fun h0 _ => ?_⟩
  · exact if_pos (by omega)
  · rw [roundConst, if_neg (by omega), if_pos (by omega), roundK1]
  · rw [roundConst, if_neg (by omega), if_neg (by omega), if_pos (by omega), roundK2]
  · rw [roundConst, if_neg (by omega), if_neg (by omega), if_neg (by omega), roundK3]

section
variable (b c d : Word) {i : Nat}

/-- R144, quadrant 0: choose. -/
theorem getLsbD_roundF0 (hi : i < 32) :
    (roundF0 b c d).getLsbD i = if b.getLsbD i then c.getLsbD i else d.getLsbD i := by
  rw [roundF0, or32, and32, and32, BitVec.getLsbD_or, BitVec.getLsbD_and, BitVec.getLsbD_and, getLsbD_not32 b hi]
  cases b.getLsbD i <;> simp

/-- R144, quadrants 1 and 3: parity. -/
theorem getLsbD_roundF1 : (roundF1 b c d).getLsbD i = xor (xor (b.getLsbD i) (c.getLsbD i)) (d.getLsbD i) := by
  rw [roundF1, xor32, xor32, BitVec.getLsbD_xor, BitVec.getLsbD_xor]

/-- R144, quadrant 2: majority. -/
theorem getLsbD_roundF2 :
    (roundF2 b c d).getLsbD i = decide (2 ≤ (b.getLsbD i).toNat + (c.getLsbD i).toNat + (d.getLsbD i).toNat) := by
  have majority : ∀ x y z : Bool, (x && y || x && z || y && z) = decide (2 ≤ x.toNat + y.toNat + z.toNat) := by decide
  rw [← majority]
  simp only [roundF2, or32, and32, BitVec.getLsbD_or, BitVec.getLsbD_and]

end

/-- Settles O39: the quadrant of `t` picks choose, parity or majority. -/
theorem roundFunctionByBit : Obligations.RoundFunctionByBit := by
  intro t b c d i _ hi
  obtain ⟨hf0, hf1, hf2, hf3⟩ := roundFn_by_quadrant t
  split_ifs with h19 hb hparity
  · rw [hf0 h19, getLsbD_roundF0 b c d hi, if_pos hb]
  · rw [hf0 h19, getLsbD_roundF0 b c d hi, if_neg hb]
  · rcases hparity with h39 | h60
    · rw [hf1 (by omega) h39, getLsbD_roundF1]
    · rw [hf3 h60]; exact getLsbD_roundF1 b c d
  · rw [hf2 (by omega) (by omega), getLsbD_roundF2]

/-! ## The rounds -/

/-- R150 in the library's spelling. -/
theorem roundWork_eq (v : Work) (f wt k : Word) :
    roundWork v f wt k =
      { a := v.a.rotateLeft 5 + f + v.e + wt + k, b := v.a, c := v.b.rotateLeft 30, d := v.c, e := v.d } := by
  simp [roundWork, add32_eq_add, rotl32_eq_rotateLeft]

/-- R150: a round inside its range, as one update. -/
theorem roundOp_eq (f : Word → Word → Word → Word) (k : Word) {s : State} (h : s.t.toNat ≤ 79) :
    roundOp f k s = .next { s with
      v := roundWork s.v (f s.v.b s.v.c s.v.d) s.w[s.t.toNat] k
      t := if s.t.toNat = 79 then s.t else s.t + 1
      ph := if s.t.toNat = 79 then .acc else .round
      out := Outputs.quiet } := by
  rcases roundOp_cases f k s with ⟨_, ⟨h79, e⟩ | ⟨hlt, e⟩⟩ | ⟨hout, _⟩
  · simp only [if_pos h79]; exact e
  · simp only [if_neg hlt.ne]; exact e
  · omega

/-- Settles O38: the four micro-operations are one round with the function and constant of their quadrant. -/
theorem roundDatapath : Obligations.RoundDatapath := by
  intro s h79 round
  have hround (f : Word → Word → Word → Word) (k : Word) : roundOp f k s = round (f s.v.b s.v.c s.v.d) k := by
    rw [roundOp_eq f k h79, roundWork_eq]
  exact ⟨fun _ => hround roundF0 _, fun _ _ => hround roundF1 _, fun _ _ => hround roundF2 _, fun _ => hround roundF3 _⟩

/-- R146 to R149: the row of the quadrant of `T` runs a round with `f(T, ·)` and `K(T)`. -/
theorem exec_selectUop_round {s : State} (hph : s.ph = .round) (h79 : s.t.toNat ≤ 79) :
    exec (selectUop s.dw) s = roundOp (roundFn s.t.toNat) (roundConst s.t.toNat) s := by
  obtain ⟨hf0, hf1, hf2, hf3⟩ := roundFn_by_quadrant s.t.toNat
  obtain ⟨hk0, hk1, hk2, hk3⟩ := roundConstantsByQuadrant s.t.toNat
  rw [selectUop_round hph, if_neg (by omega)]
  split_ifs
  · rw [hf0 (by omega), hk0 (by omega)]; rfl
  · rw [hf1 (by omega) (by omega), hk1 (by omega) (by omega)]; rfl
  · rw [hf2 (by omega) (by omega), hk2 (by omega) (by omega)]; rfl
  · rw [hf3 (by omega), hk3 (by omega) h79]; rfl

/-! ## CE.ACC -/

theorem toNat_add32 (a b : Word) : (add32 a b).toNat = (a.toNat + b.toNat) % 2 ^ 32 := by
  rw [add32_eq_add, BitVec.toNat_add]

/-- Settles O41: each word of `accumulate` is one ADD32, and `ACC` has one row. -/
theorem ceAccAddsTheWorkingVariables : Obligations.CeAccAddsTheWorkingVariables := by
  intro s
  refine ⟨fun hs hph => ?_, accumulate s.h s.v, rfl, ?_, ?_, ?_, ?_, ?_⟩
  · rw [hs.fetch, selectUop_acc hph]
  all_goals exact toNat_add32 _ _

/-! ## SEQ.INVARIANT -/

/-- R153: the rows of SEQ.INVARIANT. -/
def invariantRows : List Instr :=
  [.seqInvExpandHigh, .seqInvExpandLow, .seqInvRoundHigh, .seqInvPh9, .seqInvPhAB, .seqInvPhCD, .seqInvPhE]

theorem decodeCmd_notMem_invariantRows (c : BitVec 2) : decodeCmd c ∉ invariantRows := by
  rcases decodeCmd_cases c with ⟨_, hd⟩ | ⟨_, hd⟩ | ⟨_, hd⟩ | ⟨_, hd⟩ <;> rw [hd] <;> decide

/-- R193: the invariants keep `T` in the range of `EXPAND` and of `ROUND`, and the reserved phases out. -/
theorem selectUop_notMem_invariantRows {s : State} (hs : Inv s) : selectUop s.dw ∉ invariantRows := by
  have hlegal := hs.legal
  cases hph : s.ph
  case req => rw [selectUop_req hph]; split_ifs <;> decide
  case fill => rw [selectUop_fill hph]; split_ifs <;> decide
  case expand =>
    have ht := hs.expandT hph
    rw [selectUop_expand hph, if_neg (by omega), if_neg (by omega)]; decide
  case round =>
    have ht := hs.roundT hph
    rw [selectUop_round hph, if_neg (by omega)]; split_ifs <;> decide
  case idle | load | initv | acc | done | fault => simp [selectUop, State.dw, hph, invariantRows]
  case rsv9 | rsvA | rsvB | rsvC | rsvD | rsvE => simp [hph] at hlegal

/-- Settles O13: what is fetched is a command or the row the dispatch word selects. -/
theorem invariantFaultUnreachable : Obligations.InvariantFaultUnreachable := by
  intro s i hs hp hf
  rcases fetch_cases hp with ⟨_, hf'⟩ | ⟨_, hf'⟩ <;> cases hf.symm.trans hf'
  · exact decodeCmd_notMem_invariantRows _
  · exact selectUop_notMem_invariantRows hs

end Sys2Proof.Machine
end

section
/-! SUPPORT. The engine computes `Compress` (42_compress.md R152, R155): its steps one by one, and the schedule and the
rounds as two loops of the step machine that follow the recursion of the function. -/

namespace Sys2Proof.Machine

/-! ## Steps with the host silent -/

/-- Runs on end to end: the blocks shown are those of the first and then those of the second. -/
theorem runTap_add {j k : Nat} {s t u : State} {bs cs : List (BitVec 512)} (h : runTap j s = some (t, bs))
    (h' : runTap k t = some (u, cs)) : runTap (j + k) s = some (u, bs ++ cs) := by
  induction j generalizing s bs with
  | zero => cases h; simpa using h'
  | succ j ih =>
    rw [Nat.add_right_comm]
    simp only [runTap] at h ⊢
    split at h
    · obtain ⟨⟨v, ds⟩, hv, hb⟩ := Option.map_eq_some_iff.1 h
      cases hb
      simp [ih hv]
    · cases h

theorem HostSilent.sequencerSteps {s : State} (h : HostSilent s) : SequencerSteps s := by
  obtain ⟨hp, hr, -, hv, -⟩ := h
  exact ⟨hp, hr, by simp [State.takesCommand, hv]⟩

theorem Inputs.nextSrc_host (b : Bool) (i : Inputs) :
    (i.nextSrc b).rst = i.rst ∧ (i.nextSrc b).rstLane = i.rstLane ∧ (i.nextSrc b).cmdValid = i.cmdValid ∧
      (i.nextSrc b).cmdLane = i.cmdLane := by
  unfold Inputs.nextSrc Inputs.loadSrc
  split_ifs
  · simp
  · split <;> simp

/-- The host offers nothing later when it offers nothing now and its lanes are empty. -/
theorem hostSilent_envTick {s u : State} (h : HostSilent s) (hu : u.inp = s.inp) : HostSilent (envTick u) := by
  obtain ⟨-, hr, hrl, hv, hl⟩ := h
  obtain ⟨hr', hrl', hv', hl'⟩ := Inputs.nextSrc_host u.out.srcAccept s.inp
  have hre : s.inp.reattach = s.inp := by simp [Inputs.reattach, hr]
  simp [HostSilent, hu, Inputs.tick, hre, Inputs.nextCmd, Inputs.loadCmd, Inputs.loadRst, hr'.trans hr,
    hrl'.trans hrl, hv'.trans hv, hl'.trans hl]

/-! ## Runs of the engine -/

/-- R155: `k` steps lead from `s` to `t`, emit nothing, and leave the host silent and the padder's state and `CAUSE` as they
were. -/
structure EngineRun (k : Nat) (s t : State) : Prop where
  run : runTap k s = some (t, [])
  silent : HostSilent t
  buf : t.buf = s.buf
  count : t.count = s.count
  fill : t.fill = s.fill
  owed : t.owed = s.owed
  exh : t.exh = s.exh
  cause : t.cause = s.cause

theorem EngineRun.refl {s : State} (h : HostSilent s) : EngineRun 0 s s := ⟨rfl, h, rfl, rfl, rfl, rfl, rfl, rfl⟩

theorem EngineRun.trans {j k : Nat} {s t u : State} (h : EngineRun j s t) (h' : EngineRun k t u) :
    EngineRun (j + k) s u where
  run := runTap_add h.run h'.run
  silent := h'.silent
  buf := h'.buf.trans h.buf
  count := h'.count.trans h.count
  fill := h'.fill.trans h.fill
  owed := h'.owed.trans h.owed
  exh := h'.exh.trans h.exh
  cause := h'.cause.trans h.cause

/-- A micro-operation that writes no more than the elements of the engine. -/
theorem engineRun_one {s : State} (hs : HostSilent s) {p : Phase} {n : BitVec 7} {d : Digest} {v : Work}
    {w : Vector Word 80}
    (hx : exec (selectUop s.dw) s = .next { s with ph := p, t := n, h := d, v := v, w := w, out := Outputs.quiet }) :
    EngineRun 1 s (envTick { s with ph := p, t := n, h := d, v := v, w := w, out := Outputs.quiet }) where
  run := by
    obtain ⟨-, hr, -⟩ := hs.sequencerSteps
    rw [runTap, step_of_exec_next hr hs.sequencerSteps.fetch hx]
    rfl
  silent := hostSilent_envTick hs rfl
  buf := rfl
  count := rfl
  fill := rfl
  owed := rfl
  exh := rfl
  cause := rfl

/-- A loop of the engine: a property of the counter and the state that every step carries on. -/
theorem engineRun_iterate {P : Nat → State → Prop} {N : Nat}
    (hstep : ∀ n s, n < N → HostSilent s → P n s → ∃ t, EngineRun 1 s t ∧ P (n + 1) t) {s : State}
    (hs : HostSilent s) (h0 : P 0 s) : ∃ t, EngineRun N s t ∧ P N t := by
  have hpart : ∀ n, n ≤ N → ∃ t, EngineRun n s t ∧ P n t := by
    intro n
    induction n with
    | zero => exact fun _ => ⟨s, .refl hs, h0⟩
    | succ n ih =>
      intro hn
      obtain ⟨t, hrun, ht⟩ := ih (by omega)
      obtain ⟨u, hrun', hu⟩ := hstep n t (by omega) hrun.silent ht
      exact ⟨u, hrun.trans hrun', hu⟩
  exact hpart N le_rfl

/-! ## The schedule of the function -/

theorem length_scheduleList (blk : List Byte) (n : Nat) : (scheduleList blk n).length = 16 + n := by
  induction n with
  | zero => simp [scheduleList]
  | succ n ih => simp [scheduleList, ih, Nat.add_assoc]

theorem getD_scheduleList_zero (blk : List Byte) {i : Nat} (hi : i < 16) :
    (scheduleList blk 0).getD i 0 = blockListWord blk i := by
  simp [scheduleList, List.getD_eq_getElem?_getD, hi]

theorem getD_scheduleList_succ_of_lt (blk : List Byte) {n i : Nat} (hi : i < 16 + n) :
    (scheduleList blk (n + 1)).getD i 0 = (scheduleList blk n).getD i 0 :=
  List.getD_append _ _ _ _ (by rwa [length_scheduleList])

theorem getD_scheduleList_succ_last (blk : List Byte) (n : Nat) :
    (scheduleList blk (n + 1)).getD (16 + n) 0 =
      expandWord ((scheduleList blk n).getD (n + 13) 0) ((scheduleList blk n).getD (n + 8) 0)
        ((scheduleList blk n).getD (n + 2) 0) ((scheduleList blk n).getD n 0) := by
  rw [scheduleList, List.getD_append_right _ _ _ _ (length_scheduleList blk n).le, length_scheduleList, Nat.sub_self]
  rfl

theorem Memory.getD_bytes (m : Memory) {i : Nat} (hi : i < 64) : m.bytes.getD i 0 = m.read i := by
  simp [Memory.bytes, List.getD_eq_getElem?_getD, hi]

/-- Four bytes put together are the number read from them big-endian. -/
theorem toNat_append_four (a b c d : Byte) :
    (a ++ b ++ c ++ d).toNat = a.toNat * 2 ^ 24 + b.toNat * 2 ^ 16 + c.toNat * 2 ^ 8 + d.toNat := by
  rw [BitVec.toNat_append, BitVec.toNat_append, BitVec.toNat_append]
  rw [← Nat.shiftLeft_add_eq_or_of_lt d.isLt, ← Nat.shiftLeft_add_eq_or_of_lt c.isLt,
    ← Nat.shiftLeft_add_eq_or_of_lt b.isLt]
  simp only [Nat.shiftLeft_eq]
  omega

/-- R71, R141: a word of the block read from `BUF` and from its bytes. -/
theorem blockWord_eq_blockListWord (m : Memory) {i : Nat} (hi : i < 16) : blockWord m i = blockListWord m.bytes i := by
  apply BitVec.eq_of_toNat_eq
  rw [toNat_blockWord, blockListWord, toNat_append_four, m.getD_bytes (by omega), m.getD_bytes (by omega),
    m.getD_bytes (by omega), m.getD_bytes (by omega)]

/-! ## The schedule of the machine -/

/-- The first `16 + n` words of `W` are those of the schedule of the block. -/
def Scheduled (blk : List Byte) (n : Nat) (w : Vector Word 80) : Prop :=
  ∀ (i : Nat) (_ : i < 80), i < 16 + n → w[i] = (scheduleList blk n).getD i 0

theorem scheduled_loadSchedule (m : Memory) (w : Vector Word 80) : Scheduled m.bytes 0 (loadSchedule m w) := by
  intro i h80 hi
  rw [getElem_loadSchedule m w i h80, if_pos hi, blockWord_eq_blockListWord m hi, getD_scheduleList_zero _ hi]

/-- R142: one more word by the recurrence. -/
theorem Scheduled.set {blk : List Byte} {n : Nat} {w : Vector Word 80} (hw : Scheduled blk n w) (hn : 16 + n < 80) :
    Scheduled blk (n + 1)
      (w.set (16 + n) (expandWord w[16 + n - 3] w[16 + n - 8] w[16 + n - 14] w[16 + n - 16])) := by
  intro i h80 hi
  by_cases hlast : i = 16 + n
  · subst hlast
    rw [Vector.getElem_set_self, getD_scheduleList_succ_last, hw (16 + n - 3) (by omega) (by omega),
      hw (16 + n - 8) (by omega) (by omega), hw (16 + n - 14) (by omega) (by omega),
      hw (16 + n - 16) (by omega) (by omega), show 16 + n - 3 = n + 13 by omega, show 16 + n - 8 = n + 8 by omega,
      show 16 + n - 14 = n + 2 by omega, show 16 + n - 16 = n by omega]
  · rw [Vector.getElem_set_ne _ h80 (by omega), hw i h80 (by omega), getD_scheduleList_succ_of_lt _ (by omega)]

/-- `EXPAND` with `n` words beyond the block's own computed, or `INITV` with all 64; `d` is `H`. -/
structure Expanding (blk : List Byte) (d : Digest) (n : Nat) (s : State) : Prop where
  ph : s.ph = if n = 64 then .initv else .expand
  t : n < 64 → s.t.toNat = 16 + n
  w : Scheduled blk n s.w
  h : s.h = d

/-- R141: the step of `LOAD`. -/
theorem engineRun_load {s : State} (hs : HostSilent s) (hph : s.ph = .load) :
    ∃ t, EngineRun 1 s t ∧ Expanding s.buf.bytes s.h 0 t := by
  have hx : exec (selectUop s.dw) s = .next { s with
      w := loadSchedule s.buf s.w, t := 16, ph := .expand, out := Outputs.quiet } := by
    rw [selectUop_load hph]; rfl
  exact ⟨_, engineRun_one hs hx, rfl, fun _ => rfl, scheduled_loadSchedule s.buf s.w, rfl⟩

/-- R142: a step of `EXPAND`. -/
theorem engineRun_expand_step {blk : List Byte} {d : Digest} {n : Nat} {s : State} (hn : n < 64) (hs : HostSilent s)
    (h : Expanding blk d n s) : ∃ t, EngineRun 1 s t ∧ Expanding blk d (n + 1) t := by
  have hph : s.ph = .expand := by rw [h.ph, if_neg hn.ne]
  have ht := h.t hn
  have hsel : selectUop s.dw = .ceExpand := by rw [selectUop_expand hph, if_neg (by omega), if_neg (by omega)]
  have hx := exec_ceExpand (s := s) (by omega)
  rw [← hsel] at hx
  refine ⟨_, engineRun_one hs hx, ?_, ?_, ?_, h.h⟩
  · simp only [envTick_ph, ht, show 16 + n = 79 ↔ n + 1 = 64 by omega]
  · intro hlt
    simp only [envTick_t, if_neg (show s.t.toNat ≠ 79 by omega)]
    bv_omega
  · have hset := h.w.set (by omega)
    simpa only [envTick_w, ht] using hset

/-! ## The rounds of the machine -/

/-- `ROUND` with `n` rounds done, or `ACC` with all 80; `d` is `H`. -/
structure Rounding (blk : List Byte) (d : Digest) (n : Nat) (s : State) : Prop where
  ph : s.ph = if n = 80 then .acc else .round
  t : n < 80 → s.t.toNat = n
  w : Scheduled blk 64 s.w
  v : s.v = rounds (schedule blk) (workOfDigest d) n
  h : s.h = d

/-- R143: the step of `INITV`. -/
theorem engineRun_initv {blk : List Byte} {d : Digest} {s : State} (hs : HostSilent s) (h : Expanding blk d 64 s) :
    ∃ t, EngineRun 1 s t ∧ Rounding blk d 0 t := by
  obtain ⟨hph, -, hw, rfl⟩ := h
  have hx : exec (selectUop s.dw) s = .next { s with
      v := workOfDigest s.h, t := 0, ph := .round, out := Outputs.quiet } := by
    rw [selectUop_initv hph]; rfl
  exact ⟨_, engineRun_one hs hx, rfl, fun _ => rfl, hw, rfl, rfl⟩

/-- R146 to R150: a step of `ROUND`. -/
theorem engineRun_round_step {blk : List Byte} {d : Digest} {n : Nat} {s : State} (hn : n < 80) (hs : HostSilent s)
    (h : Rounding blk d n s) : ∃ t, EngineRun 1 s t ∧ Rounding blk d (n + 1) t := by
  have hph : s.ph = .round := by rw [h.ph, if_neg hn.ne]
  have ht := h.t hn
  have hx := (exec_selectUop_round hph (by omega)).trans (roundOp_eq _ _ (by omega))
  refine ⟨_, engineRun_one hs hx, ?_, ?_, h.w, ?_, h.h⟩
  · simp only [envTick_ph, ht, show n = 79 ↔ n + 1 = 80 by omega]
  · intro hlt
    simp only [envTick_t, if_neg (show s.t.toNat ≠ 79 by omega)]
    bv_omega
  · have hwn : s.w[n] = (schedule blk).getD n 0 := h.w n hn (by omega)
    simp only [envTick_v, rounds, ht, hwn, h.v]

/-- R151: the step of `ACC`. -/
theorem engineRun_acc {blk : List Byte} {d : Digest} {s : State} (hs : HostSilent s) (h : Rounding blk d 80 s) :
    ∃ t, EngineRun 1 s t ∧ t.ph = .req ∧ t.h = compress d blk := by
  obtain ⟨hph, -, -, hv, rfl⟩ := h
  have hx : exec (selectUop s.dw) s = .next { s with h := accumulate s.h s.v, ph := .req, out := Outputs.quiet } := by
    rw [selectUop_acc hph]; rfl
  refine ⟨_, engineRun_one hs hx, rfl, ?_⟩
  simp only [envTick_h, compress, hv]

/-! ## The whole engine -/

/-- R152, R155: 1 + 64 + 1 + 80 + 1 steps. -/
theorem engineRun_compress {s : State} (hs : HostSilent s) (hph : s.ph = .load) :
    ∃ t, EngineRun 147 s t ∧ t.ph = .req ∧ t.h = compress s.h s.buf.bytes := by
  obtain ⟨s₁, r₁, h₁⟩ := engineRun_load hs hph
  obtain ⟨s₂, r₂, h₂⟩ := engineRun_iterate (fun _ _ => engineRun_expand_step) r₁.silent h₁
  obtain ⟨s₃, r₃, h₃⟩ := engineRun_initv r₂.silent h₂
  obtain ⟨s₄, r₄, h₄⟩ := engineRun_iterate (fun _ _ => engineRun_round_step) r₃.silent h₃
  obtain ⟨s₅, r₅, h₅⟩ := engineRun_acc r₄.silent h₄
  exact ⟨s₅, (((r₁.trans r₂).trans r₃).trans r₄).trans r₅, h₅⟩

/-- Settles O53: the five stages of the engine, the two loops among them, one after the other. -/
theorem engineComputesCompress : Obligations.EngineComputesCompress := by
  intro s hs hph
  obtain ⟨t, r, hreq, hh⟩ := engineRun_compress hs hph
  exact ⟨t, r.run, hreq, hh, r.buf, r.count, r.fill, r.owed, r.exh, r.cause⟩

end Sys2Proof.Machine
end

section
/-! SUPPORT. The source lines over a step, runs that show blocks on the tap, and that the engine takes no beat
(70_reset_and_hazards.md R226, R230; 42_compress.md R155). -/

namespace Sys2Proof.Machine

/-! ## Beats and gaps at the source lines -/

/-- R82: a beat word is its kind and its data. -/
theorem beat_append_inj {k k' : BitVec 2} {b b' : Byte} (h : k ++ b = k' ++ b') : k = k' ∧ b = b' := by
  have hk := congrArg (BitVec.extractLsb' 8 2) h
  have hb := congrArg (BitVec.extractLsb' 0 8) h
  simpa only [BitVec.extractLsb'_append_eq_left, BitVec.extractLsb'_append_eq_right] using And.intro hk hb

theorem Inputs.pending_of_srcValid {i : Inputs} (h : i.srcValid = true) :
    i.pending = (i.srcKind ++ i.srcData) :: i.srcLane.filterMap id := by
  simp [Inputs.pending, h]

/-- R226: a step that accepts no beat leaves the source what it had to deliver. -/
theorem Inputs.pending_tick_of_not_accept {o : Outputs} {i : Inputs} (hr : i.rst = none) (ha : o.srcAccept = false) :
    (i.tick o).pending = i.pending := by
  rw [Inputs.pending_tick o i hr, ha]
  cases hv : i.srcValid
  · simpa [Inputs.nextSrc, hv] using Inputs.pending_loadSrc i hv
  · simp [Inputs.nextSrc, hv]

/-- R11, R57: a step that accepts a beat takes the one offered. -/
theorem Inputs.pending_tick_of_accept {o : Outputs} {i : Inputs} (hr : i.rst = none) (ha : o.srcAccept = true)
    (hv : i.srcValid = true) : (i.tick o).pending = i.pending.tail := by
  have hfree := Inputs.pending_loadSrc { i with srcValid := false } rfl
  have hload : Inputs.loadSrc { i with srcValid := false } = i.loadSrc := by
    unfold Inputs.loadSrc; split <;> simp_all
  rw [Inputs.pending_tick o i hr, ha, Inputs.pending_of_srcValid hv]
  simpa [Inputs.nextSrc, hload, Inputs.pending] using hfree

/-- The lane behind free source lines moves on by one entry. -/
theorem Inputs.srcLane_tick {o : Outputs} {i : Inputs} (hr : i.rst = none) (hv : i.srcValid = false) :
    (i.tick o).srcLane = i.srcLane.tail := by
  have hre : i.reattach = i := by simp [Inputs.reattach, hr]
  simp only [Inputs.tick, hre, Inputs.nextSrc, hv, Bool.false_and, Bool.false_eq_true, if_false]
  unfold Inputs.loadRst Inputs.nextCmd Inputs.loadCmd Inputs.loadSrc
  (repeat' split) <;> simp_all

/-! ## Runs that show blocks, and the engine's run -/

/-- Some number of steps leads from `s` to `t` and shows the blocks `bs` on the tap. -/
def Reaches (s : State) (bs : List (BitVec 512)) (t : State) : Prop := ∃ k, runTap k s = some (t, bs)

theorem Reaches.refl (s : State) : Reaches s [] s := ⟨0, rfl⟩

theorem Reaches.trans {s t u : State} {bs cs : List (BitVec 512)} (h : Reaches s bs t) (h' : Reaches t cs u) :
    Reaches s (bs ++ cs) u := by
  obtain ⟨j, hj⟩ := h
  obtain ⟨k, hk⟩ := h'
  exact ⟨j + k, runTap_add hj hk⟩

theorem reaches_of_step {s t : State} (h : step s = .next t) : Reaches s t.out.blk.toList t :=
  ⟨1, by simp [runTap, h]⟩

/-- R57, R230: outside `FILL` a step with the host silent leaves the source what it had to deliver. -/
theorem EngineRun.pending {s t : State} (h : EngineRun 1 s t) (hs : HostSilent s) (hph : s.ph ≠ .fill) :
    t.inp.pending = s.inp.pending := by
  obtain ⟨-, hr, -⟩ := hs.sequencerSteps
  have hstep : step s = .next t := by
    have hrun := h.run
    simp only [runTap] at hrun
    split at hrun <;> simp_all
  rcases step_cases hstep with ⟨hrst, -⟩ | ⟨i, u, -, hf, hx, rfl⟩
  · exact absurd hr hrst
  · obtain ⟨hrst, -, -, -, -, hv, hk, hd, hl, haccept, -⟩ := exec_ports hf hx
    have hinp : u.inp.pending = s.inp.pending := by simp only [Inputs.pending, hv, hk, hd, hl]
    rw [envTick_inp, Inputs.pending_tick_of_not_accept (hrst.trans hr), hinp]
    exact Bool.eq_false_iff.2 fun ha => hph (haccept ha).1

/-- A loop of the engine takes no beat. -/
theorem engineRun_iterate_pending {P : Nat → State → Prop} {N : Nat} (hph : ∀ n s, n < N → P n s → s.ph ≠ .fill)
    (hstep : ∀ n s, n < N → HostSilent s → P n s → ∃ t, EngineRun 1 s t ∧ P (n + 1) t) {s : State}
    (hs : HostSilent s) (h0 : P 0 s) : ∃ t, EngineRun N s t ∧ P N t ∧ t.inp.pending = s.inp.pending := by
  refine engineRun_iterate (P := fun n t => P n t ∧ t.inp.pending = s.inp.pending) ?_ hs ⟨h0, rfl⟩
  rintro n u hn hu ⟨hP, hp⟩
  obtain ⟨t, hrun, ht⟩ := hstep n u hn hu hP
  exact ⟨t, hrun, ht, (hrun.pending hu (hph n u hn hP)).trans hp⟩

/-- R152, R155 and R57: the engine compresses the block in `BUF` and takes no beat. -/
theorem engineRun_compress_pending {s : State} (hs : HostSilent s) (hph : s.ph = .load) :
    ∃ t k, EngineRun k s t ∧ t.ph = .req ∧ t.h = compress s.h s.buf.bytes ∧ t.inp.pending = s.inp.pending := by
  obtain ⟨s₁, r₁, h₁⟩ := engineRun_load hs hph
  obtain ⟨s₂, r₂, h₂, p₂⟩ := engineRun_iterate_pending (fun n s hn h => by simp [h.ph, hn.ne])
    (fun _ _ => engineRun_expand_step) r₁.silent h₁
  obtain ⟨s₃, r₃, h₃⟩ := engineRun_initv r₂.silent h₂
  obtain ⟨s₄, r₄, h₄, p₄⟩ := engineRun_iterate_pending (fun n s hn h => by simp [h.ph, hn.ne])
    (fun _ _ => engineRun_round_step) r₃.silent h₃
  obtain ⟨s₅, r₅, hreq, hh⟩ := engineRun_acc r₄.silent h₄
  have p₁ := r₁.pending hs (by simp [hph])
  have p₃ := r₃.pending r₂.silent (by simp [h₂.ph])
  have p₅ := r₅.pending r₄.silent (by simp [h₄.ph])
  exact ⟨s₅, _, (((r₁.trans r₂).trans r₃).trans r₄).trans r₅, hreq, hh, by rw [p₅, p₄, p₃, p₂, p₁]⟩

end Sys2Proof.Machine
end

section
/-! SUPPORT. The padder over a stream of beats (41_padder.md R111 to R122): the states between two blocks, in a read, and
with a block to compress, and the steps that lead from one to the next. -/

namespace Sys2Proof.Machine

/-- The host is silent; `d` is `H`, `n` the bytes counted, `p` what the source has still to deliver. -/
structure Padding (d : Digest) (n : Nat) (owed exh : Bool) (p : List (BitVec 10)) (s : State) : Prop where
  silent : HostSilent s
  h : s.h = d
  count : s.count.toNat = n
  owed : s.owed = owed
  exh : s.exh = exh
  pending : s.inp.pending = p

/-- Between two blocks. -/
def Requesting (d : Digest) (n : Nat) (owed exh : Bool) (p : List (BitVec 10)) (s : State) : Prop :=
  s.ph = .req ∧ Padding d n owed exh p s

/-- The block `blk` has been emitted and is to be compressed. -/
def Emitted (blk : List Byte) (d : Digest) (n : Nat) (owed exh : Bool) (p : List (BitVec 10)) (s : State) : Prop :=
  s.ph = .load ∧ s.buf.bytes = blk ∧ Padding d n owed exh p s

/-- A read in progress, with the bytes `l` of the block taken. -/
structure Reading (l : List Byte) (d : Digest) (n : Nat) (p : List (BitVec 10)) (s : State) : Prop where
  ph : s.ph = .fill
  fill : s.fill.toNat = l.length
  bufWf : s.buf.wf = true
  bytes : ∀ a, s.buf.read a = l.getD a 0
  padding : Padding d n false false p s

/-- A micro-operation of the sequencer, its step and what is then pending. -/
theorem Padding.step {s u : State} {d : Digest} {n : Nat} {o e : Bool} {p : List (BitVec 10)} (hs : Padding d n o e p s)
    (hx : exec (selectUop s.dw) s = .next u) (hin : u.inp = s.inp) :
    Reaches s u.out.blk.toList (envTick u) ∧ HostSilent (envTick u) ∧
      (envTick u).inp.pending = if u.out.srcAccept then p.tail else p := by
  have hf := hs.silent.sequencerSteps.fetch
  obtain ⟨-, hr, -⟩ := hs.silent.sequencerSteps
  obtain ⟨-, -, -, -, -, -, -, -, -, haccept, -⟩ := exec_ports hf hx
  refine ⟨reaches_of_step (step_of_exec_next hr hf hx), hostSilent_envTick hs.silent hin, ?_⟩
  rw [envTick_inp, hin, ← hs.pending]
  split
  · next ha => exact Inputs.pending_tick_of_accept hr ha (haccept ha).2.2
  · next ha => exact Inputs.pending_tick_of_not_accept hr (by simpa using ha)

theorem blockBits_eq_listBits (m : Memory) : blockBits m = listBits m.bytes := by
  simp [blockBits, listBits, Memory.bytes, Memory.readBE, List.foldl_map]

theorem Memory.bytes_eq_of_getElem? {m : Memory} {blk : List Byte} (h : ∀ a, a < 64 → blk[a]? = some (m.read a))
    (hl : blk.length = 64) : m.bytes = blk := by
  apply List.ext_getElem?
  intro a
  by_cases ha : a < 64
  · simp [Memory.bytes, ha, h a ha]
  · simp [Memory.bytes, show 64 ≤ a by omega, hl]

/-- R120: a micro-operation that emits leaves its block to be compressed. -/
theorem Padding.emit {s : State} {d : Digest} {n : Nat} {o e o' e' accept : Bool} {p : List (BitVec 10)} {m : Memory}
    (hs : Padding d n o e p s)
    (hx : exec (selectUop s.dw) s = .next { s with
      buf := m, owed := o', exh := e', ph := .load
      out := { Outputs.quiet with srcAccept := accept, blk := some (blockBits m) } }) :
    ∃ t, Reaches s [listBits m.bytes] t ∧ Emitted m.bytes d n o' e' (if accept then p.tail else p) t := by
  obtain ⟨hrun, hsil, hpend⟩ := hs.step hx rfl
  rw [← blockBits_eq_listBits]
  exact ⟨_, hrun, rfl, rfl, hsil, hs.h, hs.count, rfl, rfl, hpend⟩

section
variable {d : Digest} {n : Nat} {p : List (BitVec 10)} {s : State}

/-- R152: a block that has been emitted is folded into `H`. -/
theorem Emitted.compress {blk : List Byte} {o e : Bool} (h : Emitted blk d n o e p s) :
    ∃ t, Reaches s [] t ∧ Requesting (Machine.compress d blk) n o e p t := by
  obtain ⟨hph, rfl, hp⟩ := h
  obtain ⟨t, k, hrun, hreq, hh, hpend⟩ := engineRun_compress_pending hp.silent hph
  exact ⟨t, ⟨k, hrun.run⟩, hreq, hrun.silent, by rw [hh, hp.h], by rw [hrun.count, hp.count], hrun.owed.trans hp.owed,
    hrun.exh.trans hp.exh, hpend.trans hp.pending⟩

/-- R111: the sequence is exhausted. -/
theorem Requesting.exhausted (h : Requesting d n false true p s) :
    ∃ t, Reaches s [] t ∧ t.ph = .done ∧ t.h = d ∧ t.inp.pending = p := by
  obtain ⟨hph, hp⟩ := h
  have hx : exec (selectUop s.dw) s = .next { s.quiet with ph := .done } := by
    rw [selectUop_req hph, hp.exh]; rfl
  obtain ⟨hrun, -, hpend⟩ := hp.step hx rfl
  exact ⟨_, hrun, rfl, hp.h, hpend⟩

/-- R112, R122: the length-only block. -/
theorem Requesting.owed (h : Requesting d n true false p s) :
    ∃ t, Reaches s [listBits (List.replicate 56 0x00 ++ lengthBytes n)] t ∧
      Emitted (List.replicate 56 0x00 ++ lengthBytes n) d n false true p t := by
  obtain ⟨hph, hp⟩ := h
  have hbytes : (writeLength Memory.cleared s.count).bytes = List.replicate 56 0x00 ++ lengthBytes n := by
    refine Memory.bytes_eq_of_getElem? (fun a ha => ?_) (by simp [lengthBytes])
    rw [read_writeLength Memory.wf_cleared, bitLength, hp.count, List.getElem?_append]
    by_cases h56 : a < 56
    · simp [h56, show ¬ 56 ≤ a by omega, Memory.unlisted, -List.reduceReplicate]
    · simp [h56, ha, lengthBytes, show 56 ≤ a by omega, show a - 56 < 8 by omega]
  rw [← hbytes]
  refine hp.emit (accept := false) ?_
  rw [selectUop_req hph, hp.exh, hp.owed]; rfl

/-- R113: a read begins with no byte taken. -/
theorem Requesting.read (h : Requesting d n false false p s) : ∃ t, Reaches s [] t ∧ Reading [] d n p t := by
  obtain ⟨hph, hp⟩ := h
  have hx : exec (selectUop s.dw) s = .next { s.quiet with buf := Memory.cleared, fill := 0, ph := .fill } := by
    rw [selectUop_req hph, hp.exh, hp.owed]; rfl
  obtain ⟨hrun, hsil, hpend⟩ := hp.step hx rfl
  exact ⟨_, hrun, rfl, rfl, rfl, fun a => rfl, hsil, hp.h, hp.count, hp.owed, hp.exh, hpend⟩

end

/-! ## A read over the beats of the stream -/

section
variable {l : List Byte} {d : Digest} {n : Nat} {p : List (BitVec 10)} {s : State}

theorem Reading.not_full (h : Reading l d n p s) (hl : l.length < 64) : s.fill.toNat < 64 := h.fill ▸ hl

/-- R119: while the source offers nothing the read waits. -/
theorem Reading.wait (h : Reading l d n p s) (hl : l.length < 64) (hv : s.inp.srcValid = false) :
    Reaches s [] (envTick s.quiet) ∧ Reading l d n p (envTick s.quiet) := by
  have hsel : selectUop s.dw = .padWait := by
    rw [selectUop_fill h.ph, if_neg (h.not_full hl).ne, if_pos hv]
  have hx : exec (selectUop s.dw) s = .next s.quiet := by rw [hsel]; rfl
  obtain ⟨hrun, hsil, hpend⟩ := h.padding.step hx rfl
  obtain ⟨hph, hfill, hwf, hbytes, -, hh, hc, ho, he, -⟩ := h
  exact ⟨hrun, hph, hfill, hwf, hbytes, hsil, hh, hc, ho, he, hpend⟩

/-- R126: after the gap in front of it the next beat is on the source lines. -/
theorem Reading.offered {b : BitVec 10} (h : Reading l d n (b :: p) s) (hl : l.length < 64) :
    ∃ t, Reaches s [] t ∧ Reading l d n (b :: p) t ∧ t.inp.srcValid = true := by
  generalize hlane : s.inp.srcLane = lane
  induction lane generalizing s with
  | nil =>
    have hpend := h.padding.pending
    cases hv : s.inp.srcValid
    · simp [Inputs.pending, hv, hlane] at hpend
    · exact ⟨s, .refl s, h, hv⟩
  | cons x lane ih =>
    cases hv : s.inp.srcValid
    · obtain ⟨hrun, hw⟩ := h.wait hl hv
      obtain ⟨-, hr, -⟩ := h.padding.silent.sequencerSteps
      obtain ⟨t, hrun', ht⟩ := ih hw (by
        rw [envTick_inp, State.quiet_inp, Inputs.srcLane_tick hr hv, hlane, List.tail_cons])
      exact ⟨t, hrun.trans hrun', ht⟩
    · exact ⟨s, .refl s, h, hv⟩

/-- The beat on the source lines is the first one pending. -/
theorem Reading.beat {k : BitVec 2} {b : Byte} (h : Reading l d n ((k ++ b) :: p) s) (hv : s.inp.srcValid = true) :
    s.inp.srcKind = k ∧ s.inp.srcData = b := by
  have hpend := h.padding.pending
  rw [Inputs.pending_of_srcValid hv] at hpend
  exact beat_append_inj (List.head_eq_of_cons_eq hpend)

/-- R114: a data beat on the source lines is taken into the block. -/
theorem Reading.data_step {b : Byte} (h : Reading l d n (dataBeat b :: p) s) (hl : l.length < 64)
    (hn : n < 2 ^ 61 - 1) (hv : s.inp.srcValid = true) : ∃ t, Reaches s [] t ∧ Reading (l ++ [b]) d (n + 1) p t := by
  obtain ⟨hk, hb⟩ := h.beat hv
  have hlt := h.not_full hl
  have hc := h.padding.count
  have hne : s.count ≠ countMax := by rw [Ne, count_eq_countMax]; omega
  have hx : exec (selectUop s.dw) s = padDataOp b s := by
    rw [selectUop_data h.ph hlt hv hk, if_neg hne, ← hb]; rfl
  obtain ⟨_, e⟩ | ⟨hout, _⟩ := padDataOp_cases b s
  · obtain ⟨hrun, hsil, hpend⟩ := h.padding.step (hx.trans e) rfl
    obtain ⟨-, hfill, hwf, hbytes, -, hh, -, ho, he, -⟩ := h
    refine ⟨_, hrun, rfl, ?_, Memory.wf_write _ hwf hlt, fun a => ?_, hsil, hh, ?_, ho, he, hpend⟩
    · simp only [envTick_fill, List.length_append, List.length_singleton]; bv_omega
    · simp only [envTick_buf, Memory.read_write _ hwf, hbytes, hfill, List.getD_eq_getElem?_getD, List.getElem?_append]
      rcases lt_trichotomy a l.length with ha | rfl | ha
      · rw [if_neg ha.ne, if_pos ha]
      · simp
      · rw [if_neg ha.ne', if_neg (by omega), List.getElem?_eq_none (by omega), List.getElem?_eq_none (by simp; omega)]
    · simp only [envTick_count]; bv_omega
  · omega

/-- R114, R126: the data beats of a block, one after the other with any gaps. -/
theorem Reading.data {bs : List Byte} (h : Reading l d n (bs.map dataBeat ++ p) s) (hl : l.length + bs.length ≤ 64)
    (hn : n + bs.length ≤ 2 ^ 61 - 1) : ∃ t, Reaches s [] t ∧ Reading (l ++ bs) d (n + bs.length) p t := by
  induction bs generalizing l n s with
  | nil => exact ⟨s, .refl s, by simpa using h⟩
  | cons b bs ih =>
    simp only [List.length_cons] at hl hn
    obtain ⟨t, hrun, ht, hv⟩ := Reading.offered h (by omega)
    obtain ⟨u, hrun', hu⟩ := ht.data_step (by omega) (by omega) hv
    obtain ⟨w, hrun'', hw⟩ := ih hu (by simp; omega) (by omega)
    exact ⟨w, (hrun.trans hrun').trans hrun'', by simpa [Nat.add_assoc, Nat.add_comm 1] using hw⟩

/-- R115: a full read is emitted as it is. -/
theorem Reading.full (h : Reading l d n p s) (hl : l.length = 64) :
    ∃ t, Reaches s [listBits l] t ∧ Emitted l d n false false p t := by
  have hbytes : s.buf.bytes = l := Memory.bytes_eq_of_getElem? (fun a ha => by simp [h.bytes, hl, ha]) hl
  have hemit := h.padding.emit (m := s.buf) (o' := s.owed) (e' := s.exh) (accept := false) (by
    rw [selectUop_fill h.ph, if_pos (h.fill.trans hl)]; rfl)
  rwa [hbytes, h.padding.owed, h.padding.exh] at hemit

/-- R116, R117: what the EOS beat on the source lines selects. -/
theorem Reading.exec_eos {b : Byte} (h : Reading l d n (((0b01 : BitVec 2) ++ b) :: p) s) (hl : l.length < 64)
    (hv : s.inp.srcValid = true) :
    exec (selectUop s.dw) s = if 56 ≤ l.length then padEosSpillOp s else padEosFitOp s := by
  obtain ⟨hk, -⟩ := h.beat hv
  rw [selectUop_eos h.ph (h.not_full hl) hv hk, h.fill]
  split <;> rfl

/-- R74: the bytes taken, the terminator, zeros. -/
theorem getElem?_terminated (l : List Byte) {k a : Nat} (ha : a < l.length + 1 + k) :
    (l ++ terminator :: List.replicate k 0x00)[a]? = some (if a = l.length then terminator else l.getD a 0) := by
  rcases lt_trichotomy a l.length with hlt | rfl | hgt
  · simp [List.getElem?_append, hlt, hlt.ne]
  · simp
  · obtain ⟨i, rfl⟩ : ∃ i, a = l.length + 1 + i := ⟨a - l.length - 1, by omega⟩
    have hi : i < k := by omega
    simp [Nat.add_assoc, Nat.add_comm 1 i, hi]

/-- R122: the bytes of a block that ends with terminator and length. -/
theorem Reading.bytes_fit (h : Reading l d n p s) (hl : l.length ≤ 55) :
    (writeLength (s.buf.write s.fill.toNat terminator) s.count).bytes =
      l ++ terminator :: List.replicate (55 - l.length) 0x00 ++ lengthBytes n := by
  refine Memory.bytes_eq_of_getElem? (fun a ha => ?_) (by simp [lengthBytes]; omega)
  rw [read_writeLength (Memory.wf_write _ h.bufWf (h.not_full (by omega))), Memory.read_write _ h.bufWf, h.bytes, h.fill,
    bitLength, h.padding.count]
  by_cases h56 : 56 ≤ a
  · have hlen : (l ++ terminator :: List.replicate (55 - l.length) 0x00).length = 56 := by simp; omega
    rw [if_pos ⟨h56, ha⟩, List.getElem?_append_right (by omega), hlen]
    simp [lengthBytes, show a - 56 < 8 by omega]
  · rw [if_neg (by omega), List.getElem?_append_left (by simp; omega), getElem?_terminated l (by omega)]

/-- R122: the bytes of a block that ends with the terminator, the length in the next. -/
theorem Reading.bytes_spill (h : Reading l d n p s) (hl : l.length < 64) :
    (s.buf.write s.fill.toNat terminator).bytes = l ++ terminator :: List.replicate (63 - l.length) 0x00 := by
  refine Memory.bytes_eq_of_getElem? (fun a ha => ?_) (by simp; omega)
  rw [Memory.read_write _ h.bufWf, h.bytes, h.fill, getElem?_terminated l (by omega)]

/-- R116: the EOS beat, when the length fits. -/
theorem Reading.eos_fit {b : Byte} (h : Reading l d n (((0b01 : BitVec 2) ++ b) :: p) s) (hl : l.length ≤ 55)
    (hv : s.inp.srcValid = true) {blk : List Byte}
    (hblk : blk = l ++ terminator :: List.replicate (55 - l.length) 0x00 ++ lengthBytes n) :
    ∃ t, Reaches s [listBits blk] t ∧ Emitted blk d n false true p t := by
  have hx := h.exec_eos (by omega) hv
  obtain ⟨_, e⟩ | ⟨hout, _⟩ := padEosFitOp_cases s
  · rw [if_neg (by omega), e] at hx
    have hemit := h.padding.emit (o' := s.owed) (accept := true) hx
    rwa [h.bytes_fit hl, ← hblk, h.padding.owed] at hemit
  · have := h.not_full (by omega)
    omega

/-- R117: the EOS beat, when the length does not fit. -/
theorem Reading.eos_spill {b : Byte} (h : Reading l d n (((0b01 : BitVec 2) ++ b) :: p) s) (hl : 56 ≤ l.length)
    (h63 : l.length < 64) (hv : s.inp.srcValid = true) {blk : List Byte}
    (hblk : blk = l ++ terminator :: List.replicate (63 - l.length) 0x00) :
    ∃ t, Reaches s [listBits blk] t ∧ Emitted blk d n true false p t := by
  have hx := h.exec_eos h63 hv
  obtain ⟨_, e⟩ | ⟨hout, _⟩ := padEosSpillOp_cases s
  · rw [if_pos hl, e] at hx
    have hemit := h.padding.emit (e' := s.exh) (accept := true) hx
    rwa [h.bytes_spill h63, ← hblk, h.padding.exh] at hemit
  · have := h.not_full h63
    omega

/-- R118, R88(b): an ERR beat or one of the reserved kind. -/
theorem Reading.err {lo : Bool} {b : Byte}
    (h : Reading l d n (((BitVec.ofBool true ++ BitVec.ofBool lo : BitVec 2) ++ b) :: p) s) (hl : l.length < 64)
    (hv : s.inp.srcValid = true) :
    ∃ t, Reaches s [] t ∧ t.ph = .fault ∧ t.cause = .srcError ∧ t.inp.pending = p := by
  obtain ⟨hk, -⟩ := h.beat hv
  have hx : exec (selectUop s.dw) s = padErrOp s := by
    rw [selectUop_err h.ph (h.not_full hl) hv (by rw [hk]; cases lo <;> decide)]; rfl
  obtain ⟨hrun, -, hpend⟩ := h.padding.step hx rfl
  exact ⟨_, hrun, rfl, rfl, hpend⟩

end

end Sys2Proof.Machine
end

section
/-! SUPPORT. The core over the whole stream (41_padder.md R122, R126; 43_host_output.md R171, R173): START, the full blocks
of the message, and what ends it. -/

namespace Sys2Proof.Machine

/-- R122: the full blocks of a message. -/
def fullBlocks (m : List Byte) : List (List Byte) := (List.range (m.length / 64)).map (fullBlock m)

/-- R122: the bytes after the full blocks. -/
def messageTail (m : List Byte) : List Byte := m.drop (64 * (m.length / 64))

theorem blockSequence_eq (m : List Byte) : blockSequence m = fullBlocks m ++ finalBlocks (messageTail m) m.length := rfl

theorem length_messageTail (m : List Byte) : (messageTail m).length < 64 := by
  rw [messageTail, List.length_drop]; omega

theorem fullBlocks_of_lt {m : List Byte} (h : m.length < 64) : fullBlocks m = [] ∧ messageTail m = m := by
  simp [fullBlocks, messageTail, Nat.div_eq_of_lt h]

theorem length_drop_div {m : List Byte} (h : 64 ≤ m.length) : m.length / 64 = (m.drop 64).length / 64 + 1 := by
  rw [List.length_drop]; omega

theorem fullBlocks_of_ge {m : List Byte} (h : 64 ≤ m.length) :
    fullBlocks m = m.take 64 :: fullBlocks (m.drop 64) ∧ messageTail m = messageTail (m.drop 64) := by
  constructor
  · simp only [fullBlocks, length_drop_div h, List.range_succ_eq_map, List.map_cons, List.map_map]
    simp [fullBlock, Function.comp_def, Nat.mul_add, Nat.add_comm]
  · rw [messageTail, messageTail, List.drop_drop, length_drop_div h, Nat.mul_add, Nat.add_comm]

/-- R114, R115, R126: the bytes of a message are compressed block by block, up to those left in the last read. -/
theorem Requesting.message {m : List Byte} {d : Digest} {n : Nat} {p : List (BitVec 10)} {s : State}
    (h : Requesting d n false false (m.map dataBeat ++ p) s) (hn : n + m.length ≤ 2 ^ 61 - 1) :
    ∃ t, Reaches s ((fullBlocks m).map listBits) t ∧
      Reading (messageTail m) ((fullBlocks m).foldl compress d) (n + m.length) p t := by
  obtain ⟨s₁, r₁, h₁⟩ := h.read
  by_cases hl : m.length < 64
  · obtain ⟨hfull, htail⟩ := fullBlocks_of_lt hl
    obtain ⟨s₂, r₂, h₂⟩ := h₁.data (by simpa using hl.le) hn
    exact ⟨s₂, by simpa [hfull] using r₁.trans r₂, by simpa [hfull, htail] using h₂⟩
  · have hge : 64 ≤ m.length := by omega
    obtain ⟨hfull, htail⟩ := fullBlocks_of_ge hge
    have htake : (m.take 64).length = 64 := by simpa using hge
    have hdrop : (m.drop 64).length + 64 = m.length := by simp; omega
    rw [← List.take_append_drop 64 m, List.map_append, List.append_assoc] at h₁
    obtain ⟨s₂, r₂, h₂⟩ := h₁.data (by simp) (by omega)
    obtain ⟨s₃, r₃, h₃⟩ := h₂.full (by simpa using htake)
    obtain ⟨s₄, r₄, h₄⟩ := h₃.compress
    obtain ⟨s₅, r₅, h₅⟩ := h₄.message (by omega)
    refine ⟨s₅, ?_, ?_⟩
    · simpa [hfull] using (((r₁.trans r₂).trans r₃).trans r₄).trans r₅
    · rw [htail, hfull, List.foldl_cons, show n + m.length = n + (m.take 64).length + (m.drop 64).length by omega]
      exact h₅
termination_by m.length
decreasing_by omega

/-- R116, R117, R126: EOS ends the sequence with the last block or two, and the core is done. -/
theorem Reading.eos {l : List Byte} {d : Digest} {n : Nat} {b : Byte} {p : List (BitVec 10)} {s : State}
    (h : Reading l d n (((0b01 : BitVec 2) ++ b) :: p) s) (hl : l.length < 64) :
    ∃ t, Reaches s ((finalBlocks l n).map listBits) t ∧ t.ph = .done ∧ t.h = (finalBlocks l n).foldl compress d ∧
      t.inp.pending = p := by
  obtain ⟨s₁, r₁, h₁, hv⟩ := h.offered hl
  unfold finalBlocks
  split
  · next h55 =>
    obtain ⟨s₂, r₂, h₂⟩ := h₁.eos_fit h55 hv rfl
    obtain ⟨s₃, r₃, h₃⟩ := h₂.compress
    obtain ⟨s₄, r₄, h₄⟩ := h₃.exhausted
    exact ⟨s₄, ((r₁.trans r₂).trans r₃).trans r₄, h₄⟩
  · obtain ⟨s₂, r₂, h₂⟩ := h₁.eos_spill (by omega) hl hv rfl
    obtain ⟨s₃, r₃, h₃⟩ := h₂.compress
    obtain ⟨s₄, r₄, h₄⟩ := h₃.owed
    obtain ⟨s₅, r₅, h₅⟩ := h₄.compress
    obtain ⟨s₆, r₆, h₆⟩ := h₅.exhausted
    exact ⟨s₆, ((((r₁.trans r₂).trans r₃).trans r₄).trans r₅).trans r₆, h₆⟩

/-- Settles O17: in these two phases the test of START passes. -/
theorem startBeginsAComputation : Obligations.StartBeginsAComputation := by
  intro s hph
  have hacc : (s.offerCmd 0b01).acceptsStart = true := by simpa [State.acceptsStart] using hph
  exact if_pos hacc

/-- R226: an accepted command frees the command lines. -/
theorem hostSilent_of_cmdAccept {u : State} (hr : u.inp.rst = none) (hrl : u.inp.rstLane = []) (hcl : u.inp.cmdLane = [])
    (ha : u.out.cmdAccept = true) : HostSilent (envTick u) := by
  obtain ⟨hr', hrl', -, hcl'⟩ := Inputs.nextSrc_host u.out.srcAccept u.inp
  have hre : u.inp.reattach = u.inp := by simp [Inputs.reattach, hr]
  simp [HostSilent, Inputs.tick, hre, ha, Inputs.nextCmd, Inputs.loadCmd, Inputs.loadRst, hrl'.trans hrl, hcl'.trans hcl]

/-- R171: START, with no command behind it and no reset to come, begins a computation. -/
theorem requesting_of_start {s : State} (hp : s.probe = none) (hr : s.inp.rst = none) (hrl : s.inp.rstLane = [])
    (hs : StartOffered s) (hcl : s.inp.cmdLane = []) (hph : s.ph = .idle ∨ s.ph = .done) :
    ∃ t, Reaches s [] t ∧ Requesting digestIV 0 false false s.inp.pending t := by
  obtain ⟨hf, -⟩ := runsTo_cmdStart hp hr hph hs
  have hstep := step_of_exec_next hr hf (startBeginsAComputation s hph)
  exact ⟨_, reaches_of_step hstep, rfl, hostSilent_of_cmdAccept hr hrl hcl rfl, rfl, rfl, rfl, rfl,
    Inputs.pending_tick_of_not_accept hr rfl⟩

/-- Settles O54: START, the message block by block, then the blocks that EOS ends. -/
theorem digestOfAMessage : Obligations.DigestOfAMessage := by
  intro s m b rest hp hr hrl hs hcl hph hm hpend
  obtain ⟨s₁, r₁, h₁⟩ := requesting_of_start hp hr hrl hs hcl hph
  rw [hpend] at h₁
  obtain ⟨s₂, r₂, h₂⟩ := h₁.message (by omega)
  obtain ⟨s₃, r₃, hdone, hh, hrest⟩ := h₂.eos (length_messageTail m)
  obtain ⟨k, hk⟩ := (r₁.trans r₂).trans r₃
  rw [Nat.zero_add] at hh hk
  refine ⟨k, s₃, ?_, hdone, ?_, hrest⟩
  · simpa [blockSequence_eq] using hk
  · rw [hh, digestOf, blockSequence_eq, List.foldl_append]

/-- Settles O55: START, the message block by block, then the ERR beat. -/
theorem sourceErrorEndsInFault : Obligations.SourceErrorEndsInFault := by
  intro s m lo b rest hp hr hrl hs hcl hph hm hpend
  obtain ⟨s₁, r₁, h₁⟩ := requesting_of_start hp hr hrl hs hcl hph
  rw [hpend] at h₁
  obtain ⟨s₂, r₂, h₂⟩ := h₁.message (by omega)
  obtain ⟨s₃, r₃, h₃, hv⟩ := h₂.offered (length_messageTail m)
  obtain ⟨t, r₄, ht⟩ := h₃.err (length_messageTail m) hv
  obtain ⟨k, hk⟩ := ((r₁.trans r₂).trans r₃).trans r₄
  exact ⟨k, t, _, hk, ht⟩

end Sys2Proof.Machine
end

section
/-! SUPPORT. No step reads a leftover (10_state.md R37, 43_host_output.md R178, 70_reset_and_hazards.md R222): phase by phase,
two states that agree on what is live select the same micro-operation, and it carries the agreement on. -/

namespace Sys2Proof.Machine

/-! ## What is live, phase by phase -/

/-- What is live in every phase but `IDLE` and `DONE`, the outputs apart. -/
structure AgreeBusy (s t : State) : Prop where
  cause : s.cause = t.cause
  inp : s.inp = t.inp
  probe : s.probe = none ∧ t.probe = none
  h : s.h = t.h
  count : s.count = t.count
  owed : s.owed = t.owed
  exh : s.exh = t.exh

/-- What is live in the phase `p` besides. -/
def LiveIn (p : Phase) (s t : State) : Prop :=
  match p with
  | .fill => s.fill = t.fill ∧ s.buf = t.buf
  | .load => s.buf = t.buf
  | .expand => s.t = t.t ∧ ∀ (i : Nat) (_ : i < 80), i < s.t.toNat → s.w[i] = t.w[i]
  | .initv => s.w = t.w
  | .round => s.t = t.t ∧ s.w = t.w ∧ s.v = t.v
  | .acc => s.v = t.v
  | _ => True

section
variable {s t : State} (h : AgreeLive s t)
include h

theorem AgreeLive.busy (hi : s.ph ≠ .idle) (hd : s.ph ≠ .done) : AgreeBusy s t := by
  obtain ⟨hc, ho, he⟩ := h.padding hi hd
  exact ⟨h.cause, h.inp, h.probe, h.h hi, hc, ho, he⟩

theorem AgreeLive.liveIn {p : Phase} (hp : s.ph = p) : LiveIn p s t := by
  cases p
  case fill => exact ⟨h.fill hp, h.buf (.inl hp)⟩
  case load => exact h.buf (.inr hp)
  case expand => exact ⟨h.index (.inl hp), h.wBelow hp⟩
  case initv => exact h.w (.inl hp)
  case round => exact ⟨h.index (.inr hp), h.w (.inr hp), h.v (.inl hp)⟩
  case acc => exact h.v (.inr hp)
  all_goals trivial

theorem AgreeLive.quiet : AgreeLive s.quiet t.quiet := { h with out := rfl }

theorem AgreeLive.acceptBeat : AgreeLive s.acceptBeat t.acceptBeat :=
  { h with out := by rw [State.acceptBeat_out, State.acceptBeat_out, h.out] }

theorem AgreeLive.envTick : AgreeLive (envTick s) (envTick t) :=
  { h with inp := by rw [envTick_inp, envTick_inp, h.inp, h.out], probe := ⟨rfl, rfl⟩ }

end

/-- Entering a phase in agreement. -/
theorem AgreeBusy.agreeLive {s t : State} (h : AgreeBusy s t) {p : Phase} (hs : s.ph = p) (ht : t.ph = p)
    (ho : s.out = t.out) (hl : LiveIn p s t) : AgreeLive s t := by
  have hlive {q : Phase} (hq : s.ph = q) : LiveIn q s t := hs.symm.trans hq ▸ hl
  exact {
    ph := hs.trans ht.symm
    cause := h.cause
    inp := h.inp
    out := ho
    probe := h.probe
    h := fun _ => h.h
    padding := fun _ _ => ⟨h.count, h.owed, h.exh⟩
    fill := fun hq => (hlive hq).1
    buf := fun hq => hq.elim (fun hq => (hlive hq).2) (fun hq => hlive hq)
    index := fun hq => hq.elim (fun hq => (hlive hq).1) (fun hq => (hlive hq).1)
    wBelow := fun hq => (hlive hq).2
    w := fun hq => hq.elim (fun hq => hlive hq) (fun hq => (hlive hq).2.1)
    v := fun hq => hq.elim (fun hq => (hlive hq).2.2) (fun hq => hlive hq) }

/-- R142: the word that CE.EXPAND adds is computed from words below it. -/
theorem getElem_set_expandWord_congr {w w' : Vector Word 80} {n : Nat} (h16 : 16 ≤ n) (h80 : n < 80)
    (h : ∀ (i : Nat) (_ : i < 80), i < n → w[i] = w'[i]) (i : Nat) (hi : i < 80) (hle : i ≤ n) :
    (w.set n (expandWord w[n - 3] w[n - 8] w[n - 14] w[n - 16]))[i] =
      (w'.set n (expandWord w'[n - 3] w'[n - 8] w'[n - 14] w'[n - 16]))[i] := by
  rcases hle.eq_or_lt with rfl | hlt
  · simp only [Vector.getElem_set_self, h (i - 3) (by omega) (by omega), h (i - 8) (by omega) (by omega),
      h (i - 14) (by omega) (by omega), h (i - 16) (by omega) (by omega)]
  · rw [Vector.getElem_set_ne _ hi (by omega), Vector.getElem_set_ne _ hi (by omega), h i hi hlt]

/-! ## The micro-operations, phase by phase -/

/-- Whatever `r` answers, `r'` answers as well, as far as it is live. -/
def ResultsAgree (r r' : Result) : Prop := ∀ u, r = .next u → ∃ u', r' = .next u' ∧ AgreeLive u u'

theorem resultsAgree_next {u u' : State} (h : AgreeLive u u') : ResultsAgree (.next u) (.next u') := by
  rintro _ ⟨⟩
  exact ⟨u', rfl, h⟩

theorem resultsAgree_fault (f : Fault) (r : Result) : ResultsAgree (.fault f) r := by
  rintro _ ⟨⟩

section
variable {s t : State} (h : AgreeLive s t)

/-- R197: fault entry, whatever of the earlier phase is left. -/
theorem AgreeBusy.agreeLive_fault (hb : AgreeBusy s t) (c : Cause) :
    AgreeLive (raiseFault c s.quiet) (raiseFault c t.quiet) :=
  AgreeBusy.agreeLive { hb with cause := rfl } rfl rfl rfl trivial

section
variable (hb : AgreeBusy s t) (hf : s.fill = t.fill) (hbuf : s.buf = t.buf)
include hb hf hbuf

/-- R114: the byte goes to the same place of the same buffer. -/
theorem resultsAgree_padDataOp (b : Byte) : ResultsAgree (padDataOp b s) (padDataOp b t) := by
  obtain ⟨hl, e⟩ | ⟨_, e⟩ := padDataOp_cases b s
  · obtain ⟨_, e'⟩ := (padDataOp_cases b t).resolve_right fun ⟨hge, _⟩ => by rw [← hf] at hge; omega
    rw [e, e', ← hf, ← hbuf, ← hb.count]
    exact resultsAgree_next (AgreeBusy.agreeLive { hb with count := rfl } rfl rfl rfl ⟨rfl, rfl⟩)
  · rw [e]; exact resultsAgree_fault _ _

/-- R116. -/
theorem resultsAgree_padEosFitOp : ResultsAgree (padEosFitOp s) (padEosFitOp t) := by
  obtain ⟨hl, e⟩ | ⟨_, e⟩ := padEosFitOp_cases s
  · obtain ⟨_, e'⟩ := (padEosFitOp_cases t).resolve_right fun ⟨hge, _⟩ => by rw [← hf] at hge; omega
    rw [e, e', ← hf, ← hbuf, ← hb.count]
    exact resultsAgree_next (AgreeBusy.agreeLive { hb with count := rfl, exh := rfl } rfl rfl rfl rfl)
  · rw [e]; exact resultsAgree_fault _ _

/-- R117. -/
theorem resultsAgree_padEosSpillOp : ResultsAgree (padEosSpillOp s) (padEosSpillOp t) := by
  obtain ⟨hl, e⟩ | ⟨_, e⟩ := padEosSpillOp_cases s
  · obtain ⟨_, e'⟩ := (padEosSpillOp_cases t).resolve_right fun ⟨hge, _⟩ => by rw [← hf] at hge; omega
    rw [e, e', ← hf, ← hbuf]
    exact resultsAgree_next (AgreeBusy.agreeLive { hb with owed := rfl } rfl rfl rfl rfl)
  · rw [e]; exact resultsAgree_fault _ _

end

include h

/-- R111 to R113. -/
theorem resultsAgree_req (hph : s.ph = .req) : ResultsAgree (exec (selectUop s.dw) s) (exec (selectUop t.dw) t) := by
  have hb := h.busy (by simp [hph]) (by simp [hph])
  rw [selectUop_req hph, selectUop_req (h.ph ▸ hph), ← hb.exh, ← hb.owed]
  split_ifs
  · exact resultsAgree_next (AgreeBusy.agreeLive { hb with } rfl rfl rfl trivial)
  · have hlen : writeLength Memory.cleared s.count = writeLength Memory.cleared t.count := by rw [hb.count]
    exact resultsAgree_next (AgreeBusy.agreeLive { hb with owed := rfl, exh := rfl } rfl rfl (by simp [hlen]) hlen)
  · exact resultsAgree_next (AgreeBusy.agreeLive { hb with } rfl rfl rfl ⟨rfl, rfl⟩)

/-- R114 to R119, R125. -/
theorem resultsAgree_fill (hph : s.ph = .fill) : ResultsAgree (exec (selectUop s.dw) s) (exec (selectUop t.dw) t) := by
  have hb := h.busy (by simp [hph]) (by simp [hph])
  obtain ⟨hf, hbuf⟩ := h.liveIn hph
  rw [selectUop_fill hph, selectUop_fill (h.ph ▸ hph), ← hb.inp, ← hb.count, ← hf]
  split_ifs
  · exact resultsAgree_next (AgreeBusy.agreeLive { hb with } rfl rfl (by simp [hbuf]) hbuf)
  · exact resultsAgree_next h.quiet
  · exact resultsAgree_next (hb.agreeLive_fault _).acceptBeat
  · exact resultsAgree_padEosSpillOp hb hf hbuf
  · exact resultsAgree_padEosFitOp hb hf hbuf
  · exact resultsAgree_next (hb.agreeLive_fault _).acceptBeat
  · have hop := resultsAgree_padDataOp hb hf hbuf s.inp.srcData
    rw [show padDataOp s.inp.srcData t = execPadData t by rw [hb.inp]; rfl] at hop
    exact hop

/-- R141: the schedule so far is the block's, whatever `W` held. -/
theorem resultsAgree_load (hph : s.ph = .load) : ResultsAgree (exec (selectUop s.dw) s) (exec (selectUop t.dw) t) := by
  have hb := h.busy (by simp [hph]) (by simp [hph])
  have hbuf : s.buf = t.buf := h.liveIn hph
  have hw : ∀ (i : Nat) (_ : i < 80), i < 16 → (loadSchedule s.buf s.w)[i] = (loadSchedule t.buf t.w)[i] := by
    intro i h80 hi
    rw [getElem_loadSchedule _ _ i h80, getElem_loadSchedule _ _ i h80, if_pos hi, if_pos hi, hbuf]
  rw [selectUop_load hph, selectUop_load (h.ph ▸ hph)]
  exact resultsAgree_next (AgreeBusy.agreeLive { hb with } rfl rfl rfl ⟨rfl, hw⟩)

/-- R142: the words read are below `T`, and so is the word written for the next step. -/
theorem resultsAgree_expand (hph : s.ph = .expand) :
    ResultsAgree (exec (selectUop s.dw) s) (exec (selectUop t.dw) t) := by
  have hb := h.busy (by simp [hph]) (by simp [hph])
  obtain ⟨ht, hw⟩ := h.liveIn hph
  rw [selectUop_expand hph, selectUop_expand (h.ph ▸ hph), ← ht]
  split_ifs with h80 h16
  · exact resultsAgree_next (hb.agreeLive_fault _)
  · exact resultsAgree_next (hb.agreeLive_fault _)
  · have hset := getElem_set_expandWord_congr (by omega) (by omega) hw
    rw [exec_ceExpand (s := s) (by omega), exec_ceExpand (s := t) (by rw [← ht]; omega)]
    simp only [← ht]
    by_cases h79 : s.t.toNat = 79
    · simp only [if_pos h79]
      refine resultsAgree_next (AgreeBusy.agreeLive { hb with } rfl rfl rfl ?_)
      exact Vector.ext fun i hi => hset i hi (by omega)
    · simp only [if_neg h79]
      refine resultsAgree_next (AgreeBusy.agreeLive { hb with } rfl rfl rfl ⟨rfl, fun i hi hlt => hset i hi ?_⟩)
      bv_omega

/-- R143. -/
theorem resultsAgree_initv (hph : s.ph = .initv) : ResultsAgree (exec (selectUop s.dw) s) (exec (selectUop t.dw) t) := by
  have hb := h.busy (by simp [hph]) (by simp [hph])
  have hw : s.w = t.w := h.liveIn hph
  have hv : workOfDigest s.h = workOfDigest t.h := by rw [hb.h]
  rw [selectUop_initv hph, selectUop_initv (h.ph ▸ hph)]
  exact resultsAgree_next (AgreeBusy.agreeLive { hb with } rfl rfl rfl ⟨rfl, hw, hv⟩)

/-- R146 to R150. -/
theorem resultsAgree_round (hph : s.ph = .round) : ResultsAgree (exec (selectUop s.dw) s) (exec (selectUop t.dw) t) := by
  have hb := h.busy (by simp [hph]) (by simp [hph])
  obtain ⟨ht, hw, hv⟩ := h.liveIn hph
  have hph' : t.ph = .round := h.ph ▸ hph
  by_cases h80 : 80 ≤ s.t.toNat
  · rw [selectUop_round hph, selectUop_round hph', ← ht, if_pos h80]
    exact resultsAgree_next (hb.agreeLive_fault _)
  · rw [exec_selectUop_round hph (by omega), exec_selectUop_round hph' (by rw [← ht]; omega), roundOp_eq _ _ (by omega),
      roundOp_eq _ _ (by rw [← ht]; omega)]
    simp only [← ht, ← hw, ← hv]
    by_cases h79 : s.t.toNat = 79
    · simp only [if_pos h79]
      exact resultsAgree_next (AgreeBusy.agreeLive { hb with } rfl rfl rfl rfl)
    · simp only [if_neg h79]
      exact resultsAgree_next (AgreeBusy.agreeLive { hb with } rfl rfl rfl ⟨rfl, rfl, rfl⟩)

/-- R151. -/
theorem resultsAgree_acc (hph : s.ph = .acc) : ResultsAgree (exec (selectUop s.dw) s) (exec (selectUop t.dw) t) := by
  have hb := h.busy (by simp [hph]) (by simp [hph])
  have hv : s.v = t.v := h.liveIn hph
  have hh : accumulate s.h s.v = accumulate t.h t.v := by rw [hb.h, hv]
  rw [selectUop_acc hph, selectUop_acc (h.ph ▸ hph)]
  exact resultsAgree_next (AgreeBusy.agreeLive { hb with h := hh } rfl rfl rfl trivial)

/-- R222: every micro-operation, phase by phase. -/
theorem resultsAgree_selectUop : ResultsAgree (exec (selectUop s.dw) s) (exec (selectUop t.dw) t) := by
  have hph' := h.ph
  cases hph : s.ph <;> rw [hph] at hph'
  case req => exact resultsAgree_req h hph
  case fill => exact resultsAgree_fill h hph
  case load => exact resultsAgree_load h hph
  case expand => exact resultsAgree_expand h hph
  case initv => exact resultsAgree_initv h hph
  case round => exact resultsAgree_round h hph
  case acc => exact resultsAgree_acc h hph
  case idle | done | fault =>
    simp only [selectUop, State.dw, hph, ← hph']
    exact resultsAgree_next h.quiet
  case rsv9 | rsvA | rsvB | rsvC | rsvD | rsvE =>
    simp only [selectUop, State.dw, hph, ← hph']
    exact resultsAgree_next ((h.busy (by simp [hph]) (by simp [hph])).agreeLive_fault _)

/-- R170 to R172: a command other than START writes the ports alone; START writes what is live in `REQ`. -/
theorem resultsAgree_command (hc : s.takesCommand = true) :
    ResultsAgree (exec (decodeCmd s.inp.cmd) s) (exec (decodeCmd t.inp.cmd) t) := by
  have hplain (c : BitVec 2) : ResultsAgree (.next (s.offerCmd c).quiet.acceptCmd) (.next (t.offerCmd c).quiet.acceptCmd) :=
    resultsAgree_next { h with inp := by simp [h.inp], out := rfl }
  rw [← h.inp]
  rcases decodeCmd_cases s.inp.cmd with ⟨_, hd⟩ | ⟨h1, hd⟩ | ⟨_, hd⟩ | ⟨_, hd⟩ <;> rw [hd]
  · exact hplain 0b00
  · obtain ⟨-, hph⟩ := takesCommand_start hc h1
    rw [startBeginsAComputation s hph, startBeginsAComputation t (h.ph ▸ hph)]
    have hb : AgreeBusy { s with h := digestIV, count := 0, owed := false, exh := false }
        { t with h := digestIV, count := 0, owed := false, exh := false } :=
      ⟨h.cause, h.inp, h.probe, rfl, rfl, rfl, rfl⟩
    exact resultsAgree_next (AgreeBusy.agreeLive { hb with inp := by simp [h.inp] } rfl rfl rfl trivial)
  · exact hplain 0b10
  · exact hplain 0b11

end

theorem AgreeLive.takesCommand {s t : State} (h : AgreeLive s t) : s.takesCommand = t.takesCommand := by
  simp [State.takesCommand, State.acceptsStart, h.inp, h.ph]

/-- Settles O56: a reset makes live what it writes, and what is fetched is the same command or the micro-operation of the
same phase. -/
theorem noLeftoverIsRead : Obligations.NoLeftoverIsRead := by
  intro s t s' h hstep
  obtain ⟨hps, hpt⟩ := h.probe
  rcases step_cases hstep with ⟨hr, rfl⟩ | ⟨i, u, hr, hf, hx, rfl⟩
  · refine ⟨_, step_of_rst (h.inp ▸ hr), AgreeLive.envTick ?_⟩
    constructor <;> simp [h.inp, h.probe]
  · have hrt : t.inp.rst = none := h.inp ▸ hr
    obtain ⟨j, hj, hagree⟩ : ∃ j, t.fetch = .ok j ∧ ResultsAgree (exec i s) (exec j t) := by
      rcases fetch_cases hps with ⟨hc, hf'⟩ | ⟨hc, hf'⟩ <;> cases hf.symm.trans hf'
      · exact ⟨_, fetch_command hpt (h.takesCommand ▸ hc), resultsAgree_command h hc⟩
      · exact ⟨_, fetch_sequencer hpt (h.takesCommand ▸ hc), resultsAgree_selectUop h⟩
    obtain ⟨u', hx', hu⟩ := hagree u hx
    exact ⟨_, step_of_exec_next hrt hj hx', hu.envTick⟩

end Sys2Proof.Machine
end

section
/-! SUPPORT. The host commands, the holds, the block tap and the read-out ports (43_host_output.md R170 to R180). -/

namespace Sys2Proof.Machine

/-! ## Commands and holds -/

/-- Settles O45: the three meanings are the state with quiet outputs. -/
theorem holdsChangeNothing : Obligations.HoldsChangeNothing := by
  intro s i hi
  simp only [List.mem_cons, List.not_mem_nil, or_false] at hi
  rcases hi with rfl | rfl | rfl <;> rfl

/-- Settles O16: the three meanings are these updates; in a step such an offer is what is fetched. -/
theorem nopAndReservedCommandsChangeNothing : Obligations.NopAndReservedCommandsChangeNothing := by
  intro s
  refine ⟨rfl, rfl, rfl, fun hp hr hv hc => ?_⟩
  have hf := fetch_command hp (Bool.and_eq_true_iff.2 ⟨hv, Bool.or_eq_true_iff.2 (.inl (decide_eq_true hc))⟩)
  obtain ⟨u, hx, hsame⟩ := exec_decodeCmd_sameCore s hc
  have hacc : u.out.cmdAccept = true := by
    rcases decodeCmd_cases s.inp.cmd with ⟨_, hd⟩ | ⟨h1, _⟩ | ⟨_, hd⟩ | ⟨_, hd⟩
    · rw [hd] at hx; cases hx; rfl
    · exact absurd h1 hc
    · rw [hd] at hx; cases hx; rfl
    · rw [hd] at hx; cases hx; rfl
  obtain ⟨-, -, -, -, -, -, -, -, -, -, hquiet, -⟩ := exec_ports hf hx
  obtain ⟨-, -, hsrc, hblk⟩ := hquiet hacc
  exact ⟨_, step_of_exec_next hr hf hx, hsame.trans (sameCore_envTick u), hacc, hsrc, hblk⟩

/-- R226: a command offer that is not accepted is held. -/
theorem Inputs.tick_cmd_held {o : Outputs} {i : Inputs} (hr : i.rst = none) (ha : o.cmdAccept = false)
    (hv : i.cmdValid = true) : (i.tick o).cmdValid = true ∧ (i.tick o).cmd = i.cmd := by
  have hre : i.reattach = i := by simp [Inputs.reattach, hr]
  have hsrc (b : Bool) : (i.nextSrc b).cmdValid = true ∧ (i.nextSrc b).cmd = i.cmd := by
    unfold Inputs.nextSrc Inputs.loadSrc
    (repeat' split) <;> exact ⟨hv, rfl⟩
  obtain ⟨hv', hc'⟩ := hsrc o.srcAccept
  have hrst (j : Inputs) : j.loadRst.cmdValid = j.cmdValid ∧ j.loadRst.cmd = j.cmd := by
    unfold Inputs.loadRst
    split <;> exact ⟨rfl, rfl⟩
  simp [Inputs.tick, hre, Inputs.nextCmd, ha, hv', hc', hrst]

/-- Settles O18: no command is accepted, so the dispatch word is decoded and the offer is held. -/
theorem startIsHeldOutsideIdleAndDone : Obligations.StartIsHeldOutsideIdleAndDone := by
  intro s hi hd
  have hacc : ¬ s.acceptsStart = true := by simp [State.acceptsStart, hi, hd]
  refine ⟨if_neg hacc, fun hp hr ⟨hv, hc⟩ => ?_⟩
  have htakes : s.takesCommand = false := by simpa [State.takesCommand, hc] using fun _ => hacc
  refine ⟨fetch_dispatchWord hp htakes, fun t hstep => ?_⟩
  rcases step_cases hstep with ⟨hrst, _⟩ | ⟨i, u, _, hf, hx, rfl⟩
  · exact absurd hr hrst
  · obtain ⟨hr', -, hv', hc', -, -, -, -, -, -, hcmd, -⟩ := exec_ports hf hx
    have hno : u.out.cmdAccept = false := Bool.eq_false_iff.2 fun ha => by simpa [htakes] using (hcmd ha).1
    obtain ⟨hvt, hct⟩ := Inputs.tick_cmd_held (hr'.trans hr) hno (hv'.trans hv)
    exact ⟨hno, hvt, hct.trans (hc'.trans hc)⟩

/-! ## The block tap -/

/-- R180: byte `j` of the block as the tap shows it. -/
theorem extractLsb'_blockBits (m : Memory) {j : Nat} (hj : j < 64) :
    (blockBits m).extractLsb' (504 - 8 * j) 8 = m.read j := by
  have h := extractLsb'_beValue 64 m.bytes (by simp [Memory.bytes]) j hj
  rw [blockBits_eq_listBits, listBits, ← beValue]
  simpa [Memory.bytes] using h

/-- Settles O33: a reset shows nothing; a fetched instruction shows a block exactly if it is one of the four. -/
theorem blockTapShowsEmittedBlocks : Obligations.BlockTapShowsEmittedBlocks := by
  intro s t hstep
  rcases step_cases hstep with ⟨hr, rfl⟩ | ⟨i, u, hr, hf, hx, rfl⟩
  · have hno : (envTick (resetStep s)).blkValid = false := rfl
    simp [hno, hr]
  · obtain ⟨-, -, -, -, -, -, -, -, -, -, -, hemit, hblk⟩ := exec_ports hf hx
    refine ⟨?_, fun hv j hj => ?_⟩
    · rw [show (envTick u).blkValid = u.out.blk.isSome from rfl, hemit]
      constructor
      · exact fun hi => ⟨hr, i, hi, hf⟩
      · rintro ⟨-, k, hk, hf'⟩
        cases hf.symm.trans hf'
        exact hk
    · obtain ⟨x, hx⟩ := Option.isSome_iff_exists.1 hv
      rw [State.blkData, hx, Option.getD_some, hblk x hx, envTick_buf, extractLsb'_blockBits _ hj]

/-! ## The read-out ports -/

/-- R177: busy or `DONE`. -/
theorem readOutDefined_of {s : State} (h : s.done = true ∨ s.busy = true) : s.readOutDefined = true := by
  simpa [State.readOutDefined] using h

theorem toNat_hexAscii (v : BitVec 4) :
    (hexAscii v).toNat = if v.toNat ≤ 9 then 0x30 + v.toNat else 0x61 + (v.toNat - 10) := by
  revert v; decide

/-- R80: character `c` of the string. -/
theorem extractLsb'_hexBits (h : Digest) {c : Nat} (hc : c < 40) :
    h.hexBits.extractLsb' (312 - 8 * c) 8 = hexAscii (hexNibble h c) := by
  have hbyte := extractLsb'_beValue 40 ((List.range 40).map fun c => hexAscii (hexNibble h c)) (by simp) c hc
  rw [beValue, List.foldl_map] at hbyte
  simpa [Digest.hexBits] using hbyte

/-- Settles O50: the formatter shows the port, and each character is the code of its nibble. -/
theorem hexFormatterShowsTheDigest : Obligations.HexFormatterShowsTheDigest := by
  intro s
  refine ⟨s.hexPort, rfl, fun hro c hc => ?_⟩
  rw [State.hexPort, if_pos (readOutDefined_of hro), extractLsb'_hexBits s.h hc]
  exact toNat_hexAscii (hexNibble s.h c)

/-- A word above the lowest one. -/
theorem extractLsb'_append_word {v : Nat} (x : BitVec v) (y : Word) (a : Nat) :
    (x ++ y).extractLsb' (a + 32) 32 = x.extractLsb' a 32 :=
  BitVec.extractLsb'_append_eq_of_le (Nat.le_add_left 32 a)

/-- R78: word `i` of the digest, behind the `4 - i` words below it. -/
theorem extractLsb'_bits (h : Digest) {i : Nat} (hi : i < 5) : h.bits.extractLsb' (128 - 32 * i) 32 = h.get i := by
  have below {v : Nat} (x : BitVec v) (y : Word) (a : Nat) := extractLsb'_append_word x y a
  interval_cases i
  · exact (below _ _ 96).trans ((below _ _ 64).trans ((below _ _ 32).trans
      ((below _ _ 0).trans BitVec.extractLsb'_eq_self)))
  · exact (below _ _ 64).trans ((below _ _ 32).trans ((below _ _ 0).trans BitVec.extractLsb'_append_eq_right))
  · exact (below _ _ 32).trans ((below _ _ 0).trans BitVec.extractLsb'_append_eq_right)
  · exact (below _ _ 0).trans BitVec.extractLsb'_append_eq_right
  · exact BitVec.extractLsb'_append_eq_right

/-- A field of a field is a field of the whole. -/
theorem extractLsb'_extractLsb' {w : Nat} (x : BitVec w) {a b m n : Nat} (h : b + n ≤ m) :
    (x.extractLsb' a m).extractLsb' b n = x.extractLsb' (a + b) n := by
  apply BitVec.eq_of_getLsbD_eq
  intro i hi
  simp [hi, show b + i < m by omega, Nat.add_assoc]

/-- Settles O51: the port shows the digest, whose words are `H`; a byte of a word is a byte of the digest. -/
theorem digestPortWordsAndBytes : Obligations.DigestPortWordsAndBytes := by
  intro s
  have hword := fun i (hi : i < 5) => extractLsb'_bits s.h hi
  refine ⟨fun hro => ?_, by simp [Digest.bytes], fun i k hi hk => ?_⟩
  · rw [State.digestPort, if_pos (readOutDefined_of hro)]
    exact ⟨hword 0 (by decide), hword 1 (by decide), hword 2 (by decide), hword 3 (by decide), hword 4 (by decide)⟩
  · have hj : 4 * i + k < 20 := by omega
    have hpos : 152 - 8 * (4 * i + k) = 128 - 32 * i + (24 - 8 * k) := by omega
    rw [← hword i hi, extractLsb'_extractLsb' _ (by omega), ← hpos]
    simp [Digest.bytes, hj]

end Sys2Proof.Machine
end

section
/-! SUPPORT. Faults (60_exceptions.md R190 to R199): what entering `FAULT` writes, the only steps that enter it, and
that reset is the only way out. -/

namespace Sys2Proof.Machine

/-! ## Fault entry -/

/-- R153, R197. -/
theorem exec_of_mem_invariantRows {i : Instr} (hi : i ∈ invariantRows) (s : State) : exec i s = invariantFault s := by
  simp only [invariantRows, List.mem_cons, List.not_mem_nil, or_false] at hi
  rcases hi with rfl | rfl | rfl | rfl | rfl | rfl | rfl <;> rfl

/-- Settles O42: the two of the padder are these updates, the rows of SEQ.INVARIANT the one of their rule. -/
theorem faultEntryWritesOnlyPhaseAndCause : Obligations.FaultEntryWritesOnlyPhaseAndCause :=
  fun s => ⟨rfl, rfl, fun _ hi => exec_of_mem_invariantRows hi s⟩

/-! ## The steps that enter `FAULT` -/

section
variable {s u : State} (hs : Inv s)
include hs

/-- R193: with `T` in range and no reserved phase, no micro-operation outside `FILL` enters `FAULT`. -/
theorem ph_ne_fault_of_exec_selectUop (hfill : s.ph ≠ .fill) (hfault : s.ph ≠ .fault)
    (hx : exec (selectUop s.dw) s = .next u) : u.ph ≠ .fault := by
  have hlegal := hs.legal
  cases hph : s.ph
  case fill => exact absurd hph hfill
  case fault => exact absurd hph hfault
  case req =>
    rw [selectUop_req hph] at hx
    split_ifs at hx <;> cases hx <;> simp
  case expand =>
    have ht := hs.expandT hph
    rw [selectUop_expand hph, if_neg (by omega), if_neg (by omega), exec_ceExpand ht] at hx
    cases hx
    dsimp only
    split_ifs <;> simp
  case round =>
    have ht := hs.roundT hph
    rw [exec_selectUop_round hph ht, roundOp_eq _ _ ht] at hx
    cases hx
    dsimp only
    split_ifs <;> simp
  case idle | done | load | initv | acc =>
    simp only [selectUop, State.dw, hph] at hx
    cases hx
    simp [hph]
  case rsv9 | rsvA | rsvB | rsvC | rsvD | rsvE => simp [hph] at hlegal

/-- R191, R192: of the rows of `FILL` only PAD.ERR and PAD.DATA.OVF enter `FAULT`, each on the beat it accepts. -/
theorem fault_cause_of_exec_fill (hph : s.ph = .fill) (hx : exec (selectUop s.dw) s = .next u) (hu : u.ph = .fault) :
    s.fill.toNat < 64 ∧ u.out.srcAccept = true ∧
      ((u.cause = .srcError ∧ (BeatOffered 0b10 s ∨ BeatOffered 0b11 s)) ∨
       (u.cause = .lenOverflow ∧ BeatOffered 0b00 s ∧ s.count.toNat = 2 ^ 61 - 1)) := by
  have hkind : ∀ k : BitVec 2, (k.getLsbD 1 = true → k = 0b10 ∨ k = 0b11) ∧
      (¬ k.getLsbD 1 = true → ¬ k.getLsbD 0 = true → k = 0b00) := by decide
  obtain ⟨hkerr, hkdata⟩ := hkind s.inp.srcKind
  have hF := hs.fill
  rw [selectUop_fill hph] at hx
  split_ifs at hx with hfull hv herr heos hspill hmax
  · cases hx; simp at hu
  · cases hx; simp [hph] at hu
  · cases hx
    have hoffered : s.inp.srcValid = true := by simpa using hv
    exact ⟨by omega, rfl, .inl ⟨rfl, (hkerr herr).imp (.intro hoffered) (.intro hoffered)⟩⟩
  · obtain ⟨_, o, rfl⟩ := padEosSpillOp_next hx; simp at hu
  · obtain ⟨_, o, rfl⟩ := padEosFitOp_next hx; simp at hu
  · cases hx
    exact ⟨by omega, rfl, .inr ⟨rfl, ⟨by simpa using hv, hkdata herr heos⟩, hmax⟩⟩
  · obtain ⟨_, rfl⟩ := padDataOp_next hx; simp at hu

end

/-- Settles O43: a reset and a command do not enter `FAULT`, and of the micro-operations only those of `FILL` do. -/
theorem faultsOnlyByTheThreeCauses : Obligations.FaultsOnlyByTheThreeCauses := by
  intro s t hs hp hstep hfault ht
  rcases step_cases hstep with ⟨_, rfl⟩ | ⟨i, u, _, hf, hx, rfl⟩
  · simp at ht
  · have hu : u.ph = .fault := ht
    rcases fetch_cases hp with ⟨hc, hf'⟩ | ⟨_, hf'⟩ <;> cases hf.symm.trans hf'
    · rcases ph_req_or_sameCore_of_command hc hx with hreq | ⟨hsame, _⟩
      · simp [hreq] at hu
      · exact absurd (hsame.symm.trans hu) hfault
    · by_cases hfill : s.ph = .fill
      · have hcause := fault_cause_of_exec_fill hs hfill hx hu
        exact ⟨hfill, hcause⟩
      · exact absurd hu (ph_ne_fault_of_exec_selectUop hs hfill hfault hx)

/-! ## `FAULT` until reset -/

/-- R226: a beat that is offered and not accepted is held over the step. -/
theorem sameSourceOffer_of_not_accept {s t : State} (hr : s.inp.rst = none) (hstep : step s = .next t)
    (ha : t.out.srcAccept = false) (hv : s.inp.srcValid = true) : SameSourceOffer s t := by
  rcases step_cases hstep with ⟨hrst, _⟩ | ⟨i, u, _, hf, hx, rfl⟩
  · exact absurd hr hrst
  · obtain ⟨hr', -, -, -, -, hv', hk', hd', -⟩ := exec_ports hf hx
    have hlines := Inputs.tick_src u.out u.inp (hr'.trans hr)
    have hheld : u.inp.nextSrc u.out.srcAccept = u.inp := if_pos (by simp [hv', hv, show u.out.srcAccept = false from ha])
    rw [hheld, hv', hk', hd'] at hlines
    exact hlines

/-- R199: in `FAULT` a command other than START may be accepted (R172); nothing else happens. -/
theorem step_fault_holds {s : State} (hph : s.ph = .fault) (hp : s.probe = none) (hr : s.inp.rst = none) :
    ∃ t, step s = .next t ∧ SameCore s t ∧ t.out.srcAccept = false ∧ t.out.blk = none := by
  rcases fetch_cases hp with ⟨hc, _⟩ | ⟨_, hf⟩
  · obtain ⟨-, -, -, hother⟩ := nopAndReservedCommandsChangeNothing s
    have h1 : s.inp.cmd ≠ 0b01 := fun h => by simpa [hph] using (takesCommand_start hc h).2
    have hv : s.inp.cmdValid = true := (Bool.and_eq_true_iff.1 hc).1
    obtain ⟨t, hstep, hsame, -, hsrc, hblk⟩ := hother hp hr hv h1
    exact ⟨t, hstep, hsame, hsrc, hblk⟩
  · have hx : exec (selectUop s.dw) s = .next s.quiet := by
      simp only [selectUop, State.dw, hph]; rfl
    exact ⟨_, step_of_exec_next hr hf hx, (sameCore_quiet s).trans (sameCore_envTick _), rfl, rfl⟩

/-- Settles O44: without reset the step holds, and what it does not accept stays offered; with reset it is the reset
step. -/
theorem faultIsAbsorbingUntilReset : Obligations.FaultIsAbsorbingUntilReset := by
  intro s hph hp
  refine ⟨fun hr => ?_, fun hr => ⟨_, step_of_rst hr, rfl, rfl⟩⟩
  obtain ⟨t, hstep, hsame, hsrc, hblk⟩ := step_fault_holds hph hp hr
  obtain ⟨-, hstart⟩ := startIsHeldOutsideIdleAndDone s (by simp [hph]) (by simp [hph])
  exact ⟨t, hstep, hsame, hsrc, hblk, fun ho => (hstart hp hr ho).2 t hstep,
    sameSourceOffer_of_not_accept hr hstep hsrc⟩

end Sys2Proof.Machine
end

section
/-! SUPPORT. Reset and the byte source over one step (70_reset_and_hazards.md R220, R226, R230): what a reset step
leaves, where a beat is accepted, and that none is lost. -/

namespace Sys2Proof.Machine

/-! ## The source's beats over a step -/

/-- An instruction leaves the source what it had to deliver; only the end of the step takes a beat from it. -/
theorem pending_of_exec {s u : State} {i : Instr} (hf : s.fetch = .ok i) (hx : exec i s = .next u) :
    u.inp.pending = s.inp.pending := by
  obtain ⟨-, -, -, -, -, hv, hk, hd, hl, -⟩ := exec_ports hf hx
  simp only [Inputs.pending, hv, hk, hd, hl]

/-- R57, R230: a step that accepts a beat takes the one offered in `FILL`, and the source goes on with the one behind it. -/
theorem step_of_srcAccept {s t : State} (hs : Inv s) (hstep : step s = .next t) (ha : t.out.srcAccept = true) :
    s.ph = .fill ∧ s.fill.toNat < 64 ∧ s.inp.srcValid = true ∧ t.inp.pending = s.inp.pending.tail := by
  rcases step_cases hstep with ⟨-, rfl⟩ | ⟨i, u, hr, hf, hx, rfl⟩
  · simp [Outputs.quiet] at ha
  · have hau : u.out.srcAccept = true := ha
    obtain ⟨hrst, -, -, -, -, hv, -, -, -, haccept, -⟩ := exec_ports hf hx
    obtain ⟨hph, hne, hoffered⟩ := haccept hau
    refine ⟨hph, Nat.lt_of_le_of_ne hs.fill hne, hoffered, ?_⟩
    rw [envTick_inp, Inputs.pending_tick_of_accept (hrst.trans hr) hau (hv.trans hoffered), pending_of_exec hf hx]

/-- R226: without reset, a step that accepts no beat leaves the source what it had to deliver. -/
theorem step_pending_of_not_accept {s t : State} (hr : s.inp.rst = none) (hstep : step s = .next t)
    (ha : t.out.srcAccept = false) : t.inp.pending = s.inp.pending := by
  rcases step_cases hstep with ⟨hrst, -⟩ | ⟨i, u, -, hf, hx, rfl⟩
  · exact absurd hr hrst
  · have hau : u.out.srcAccept = false := ha
    obtain ⟨hrst, -⟩ := exec_ports hf hx
    rw [envTick_inp, Inputs.pending_tick_of_not_accept (hrst.trans hr) hau, pending_of_exec hf hx]

/-- Settles O19: the clause of an accepted beat, the offer that is held, and the beats that stay to be delivered. -/
theorem beatsAcceptedOnlyInFillAndNeverDropped : Obligations.BeatsAcceptedOnlyInFillAndNeverDropped :=
  fun _ _ hstep => ⟨fun hs => step_of_srcAccept hs hstep, fun hr => sameSourceOffer_of_not_accept hr hstep,
    fun hr => step_pending_of_not_accept hr hstep⟩

/-! ## A beat offered where none is accepted -/

/-- R230: outside `FILL`, and with `FILL` at 64 or above, an offered beat is not accepted. -/
theorem not_acceptsBeat_offerBeat {s : State} (h : s.ph ≠ .fill ∨ 64 ≤ s.fill.toNat) (k : BitVec 2) (b : Byte) :
    ¬ (s.offerBeat k b).acceptsBeat = true := by
  rcases h with hph | hfull
  · simp [State.acceptsBeat, hph]
  · simp [State.acceptsBeat, Nat.not_lt.2 hfull]

/-- Settles O22: each kind takes the pending branch of its rule, which only shows the offer. -/
theorem beatsStayPendingElsewhere : Obligations.BeatsStayPendingElsewhere :=
  fun _ b h => ⟨if_neg (not_acceptsBeat_offerBeat h 0b00 b), if_neg (not_acceptsBeat_offerBeat h 0b01 b),
    if_neg (not_acceptsBeat_offerBeat h 0b10 b), if_neg (not_acceptsBeat_offerBeat h 0b11 b)⟩

/-! ## The reset step -/

/-- R85, R221: the status after a reset is that of `IDLE` without a cause. -/
theorem status_resetStep (s : State) : (envTick (resetStep s)).status = 0x00 :=
  status_eq_of (p := .idle) (c := .none) rfl rfl

/-- Settles O9: `rst` has priority over every offer, and the end of the reset step leaves what it wrote. -/
theorem resetStepClearsControlState : Obligations.ResetStepClearsControlState :=
  fun s hr => ⟨envTick (resetStep s), step_of_rst hr, rfl, rfl, rfl, rfl, rfl, rfl, rfl, status_resetStep s, rfl, rfl, rfl⟩

end Sys2Proof.Machine
end
